-- ==== Sys2Proof/Word.lean ====
section
/-!
DEFINITION. The two sizes of datum ENC handles: the byte of its buffers (00_scope R4 `BYTE`, R5) and the
pulse duration of the waveform builder (R4 `PULSEW`).
-/
namespace Sys2Proof

/-- A buffer element: an unsigned integer 0 to 255 (R5). -/
abbrev Byte := BitVec 8

/-- One pulse duration in microseconds, unsigned, `PULSEW` = 16 bits (R4, R108). -/
abbrev Pulse := BitVec 16

end Sys2Proof
end

