-- ==== Sys2Proof/Config.lean ====
section
/-!
DEFINITION. The parameters of ENC (00_scope R4): the limits the source fixes, the record of the OPEN
parameters, the shape of a timing specification (42_waveform R106), and the host's one free value (R172, U1).
-/
namespace Sys2Proof

/-- `W`: the largest back-reference distance (R4). -/
@[simp] abbrev Config.window : Nat := 8192

/-- `LMIN`: the smallest match length a distance block encodes (R4). -/
@[simp] abbrev Config.minMatch : Nat := 3

/-- `LMAX`: the largest match length a distance block encodes (R4). -/
@[simp] abbrev Config.maxMatch : Nat := 264

/-- `LITMAX`: the largest literal block payload (R4). -/
@[simp] abbrev Config.maxLit : Nat := 32

/-- `EXT_BYTE_POS` (R4, R77, U9): where the third byte of a long distance block stands. -/
inductive ExtBytePos where
  /-- `[lf dh, dl, ext]`, the source's word. -/
  | trailing
  /-- `[lf dh, ext, dl]`, the alternative U9 tells a model to carry. -/
  | middle
  deriving DecidableEq, Repr

/-- `BASE` (R4, D43): where a platform places ENC's registers and buffers. "No rule depends on it" (R58); the spec
names forms it may take, and that it has these four numbers is a DESIGN CHOICE (log entry 22). -/
structure Base where
  /-- The base address or port number of register 0. -/
  regs : Nat
  /-- The stride from one register to the next. -/
  stride : Nat
  /-- Where the window of `IBUF` begins. -/
  ibuf : Nat
  /-- Where the window of `OBUF` begins. -/
  obuf : Nat
  deriving DecidableEq, Repr

/-- The parameters R4 leaves OPEN ("the model takes it as an argument") and the parameter of U9. -/
structure Config where
  /-- `IBUF_CAP`, the input buffer's capacity in bytes. -/
  ibufCap : Nat
  /-- `OBUF_CAP`, the output buffer's capacity in bytes. -/
  obufCap : Nat
  /-- `EXT_BYTE_POS`. -/
  extPos : ExtBytePos
  /-- `BASE`. -/
  base : Base
  deriving DecidableEq, Repr

/-- `ceil(n / 32)`: the number of literal blocks of `n` bytes (R13, R121). -/
def Config.ceil32 (n : Nat) : Nat := (n + 31) / 32

/-- The bounds R4 puts on the capacities: `IBUF_CAP` at least 400, `OBUF_CAP` at least
`IBUF_CAP + ceil(IBUF_CAP / 32)`. -/
abbrev Config.Admissible (c : Config) : Prop :=
  400 ≤ c.ibufCap ∧ c.ibufCap + Config.ceil32 c.ibufCap ≤ c.obufCap

/-- `LENW`: the smallest width holding `max(IBUF_CAP, OBUF_CAP)` (R4, D31). -/
def Config.lenW (c : Config) : Nat := Nat.log2 (max c.ibufCap c.obufCap) + 1

/-- DESIGN CHOICE (log entry 1): the values of 95_test_vectors V20, "the recommended values", with
`EXT_BYTE_POS` at its default `trailing`, and a `BASE` that places every index at itself (log entry 22). Only
`State.reset` names them; they are unsafe to rest a claim on. -/
def Config.recommended : Config := ⟨16384, 16896, .trailing, ⟨0, 1, 0, 0⟩⟩

/-- A timing specification: four duration lists (R27, R106). -/
structure Timing where
  /-- `T_HDR`: before the first bit. -/
  hdr : List Pulse
  /-- `T_ONE`: for a 1 bit. -/
  one : List Pulse
  /-- `T_ZERO`: for a 0 bit. -/
  zero : List Pulse
  /-- `T_GAP`: after the last bit. -/
  gap : List Pulse
  deriving DecidableEq, Repr

/-- FREE VALUE (log entry 14): whether `half_up` takes a negative half-integer toward plus infinity; the
spec leaves it open (R172, N10, U1), so nothing is known of it. -/
opaque Config.halfUpNegativeTowardPlus : Bool

end Sys2Proof
end

