-- ==== Sys2Proof/Machine/State.lean ====
section
/-!
DEFINITION. The state of the machine: one ENC (10_state R20), the reference decoder that replays block streams
(43_block_formatter R125), and the host that drives both (00_scope R8), with the reasons a step can stop.
-/
namespace Sys2Proof.Machine

/-- A byte buffer: its written bytes by rising index. An index that is not listed holds no value (R21, R22). -/
abbrev Memory := List Host.Cell

/-- ENC's error codes but for "none" (60_exceptions R186). -/
inductive Err where
  /-- 1, a reserved command word (R187). -/
  | illop
  /-- 2, `ILEN > IBUF_CAP` (R188). -/
  | ilen
  /-- 3, a result longer than `OBUF_CAP` (R189). -/
  | ovf
  /-- 4, a formatter request out of range (R190). -/
  | inv
  deriving DecidableEq, Repr

/-- The reference decoder's data (R125): the byte sequence, the input index, the output so far. -/
structure Decoder where
  /-- The byte sequence being decoded, `s`. -/
  stream : List Byte
  /-- The input index `i`. -/
  i : Nat
  /-- The output so far, `out`. -/
  out : List Byte
  deriving DecidableEq, Repr

/-- One move of the host: an access of R56 and R57, a reset (R210), or a use of the reference decoder (R125). -/
inductive HostMove where
  /-- Write the value `v` to register `r`; register 0 is `CMD`, so this is how an operation starts (R25). -/
  | writeReg (r v : Nat)
  /-- Read register `r`. -/
  | readReg (r : Nat)
  /-- Write `IBUF[i]`. -/
  | writeIbuf (i : Nat) (b : Byte)
  /-- Read `IBUF[i]`: no access of R50. -/
  | readIbuf (i : Nat)
  /-- Write `OBUF[i]`: ignored (R57). -/
  | writeObuf (i : Nat) (b : Byte)
  /-- Read `OBUF[i]`. -/
  | readObuf (i : Nat)
  /-- Reset ENC (R210, R211). -/
  | reset
  /-- Give the reference decoder a byte sequence; it starts with `i = 0` and `out = []` (R125). -/
  | loadStream (bytes : List Byte)
  /-- Let the reference decoder replay one block, if the stream has one left (R125). -/
  | replayBlock
  deriving DecidableEq, Repr

/-- The whole machine. `cfg` is the configuration (R4), the same in every state of a run (DESIGN CHOICE,
log entry 1); the next six fields are ENC's state of R20; `dec` is the reference decoder; `script` and `seen` are the host's side, the
model's own (DESIGN CHOICE, log entry 2). -/
structure State where
  /-- The OPEN parameters of R4. -/
  cfg : Config
  /-- `CMD`, register 0 (R25). -/
  cmd : Byte
  /-- `STATUS`, register 1 (R26): `BUSY` bit 0, `DONE` bit 1, `ERR` bits 4:2. -/
  status : Byte
  /-- `ILEN`, register 2, `LENW` bits (R23). -/
  ilen : Nat
  /-- `OLEN`, register 3, `LENW` bits (R24). -/
  olen : Nat
  /-- `IBUF` (R21). -/
  ibuf : Memory
  /-- `OBUF` (R22). -/
  obuf : Memory
  /-- The reference decoder (R125). -/
  dec : Decoder
  /-- The host's moves still to come, the next one first. -/
  script : List HostMove
  /-- The values the host's reads returned, the first one first. -/
  seen : List Nat
  deriving DecidableEq, Repr

/-- The state after reset with the parameters `c` (R33, R210): registers 0, no buffer byte holds a value. -/
def State.resetOf (c : Config) : State where
  cfg := c
  cmd := 0#8
  status := 0#8
  ilen := 0
  olen := 0
  ibuf := []
  obuf := []
  dec := ⟨[], 0, []⟩
  script := []
  seen := []

/-- The machine right after reset, with the parameters 95_test_vectors V20 recommends (log entry 1) and no host
move pending (log entry 2). -/
def State.reset : State := State.resetOf Config.recommended

/-- Why the machine stops with a fault. -/
inductive Fault where
  /-- A byte that holds no value was read: by an operation whose payload includes such a byte, or by a host
  read of `OBUF` (R21, R22, U7; DEDUCED, log entry 5). Safe: no claim about a result can be proved there. -/
  | noValue
  /-- The reference decoder's `TRUNC`: the stream ends inside a block (R128, U14; DEDUCED, log entry 4). Safe. -/
  | decTrunc
  /-- The reference decoder's `DIST`: a distance beyond the output so far (R128, U14; DEDUCED, log entry 4). Safe. -/
  | decDist
  deriving DecidableEq, Repr

/-- Why the machine refuses a move. -/
inductive Refusal where
  /-- An instruction without a meaning; only the refused arms of `exec` answer it. Safe. -/
  | notModelled (mnemonic : String)
  /-- A host access to a register index above 3 (R65, U12). Safe. -/
  | noSuchRegister
  /-- A host access to an index outside a buffer (R65, U12). Safe. -/
  | noSuchByte
  /-- A host write of a value the register has no bits for (DESIGN CHOICE, log entry 19). Safe. -/
  | valueTooWide
  /-- A host read of `IBUF`, which only operations read (R50, R59; DEDUCED, log entry 9). Safe. -/
  | ibufWriteOnly
  /-- A literal of 0 or more than 32 bytes handed to `exec`, which no encoding yields (R75; DESIGN CHOICE, log
  entry 20). Safe. -/
  | illFormed
  deriving DecidableEq, Repr

/-- The outcome of a step of this machine. -/
abbrev Result := Host.Outcome State Fault Refusal

end Sys2Proof.Machine
end

