-- ==== Sys2Proof/Machine/Flags.lean ====
section
/-!
DEFINITION. The fields of `STATUS`, ENC's only flags (10_state R26, R32): its layout, its reading, and the value
it has at the end of an operation. No arithmetic sets a flag (00_scope R13).
-/
namespace Sys2Proof.Machine

/-- The value of `STATUS.ERR` for an error (60_exceptions R186). -/
def Err.code : Err → BitVec 3
  | .illop => 1#3
  | .ilen => 2#3
  | .ovf => 3#3
  | .inv => 4#3

/-- `STATUS` as its fields lie: `{000, ERR, DONE, BUSY}` (R26). -/
def statusWord (err : BitVec 3) (done busy : Bool) : Byte :=
  0#3 ++ err ++ BitVec.ofBool done ++ BitVec.ofBool busy

/-- `STATUS.BUSY` (R26). -/
def statusBusy (st : Byte) : Bool := st.getLsbD 0

/-- `STATUS.DONE` (R26). -/
def statusDone (st : Byte) : Bool := st.getLsbD 1

/-- `STATUS.ERR` (R26). -/
def statusErr (st : Byte) : BitVec 3 := st.extractLsb' 2 3

/-- `STATUS` after an operation that ended normally: `{ERR = 0, DONE = 1, BUSY = 0}` (R26). -/
def statusOk : Byte := statusWord 0#3 true false

/-- `STATUS` after an operation that ended with error `e` (R192). -/
def statusError (e : Err) : Byte := statusWord e.code true false

end Sys2Proof.Machine
end

