-- ==== Sys2Proof/Machine/Ops.lean ====
section
/-!
DEFINITION. The named operations over the buffers and registers: reading and writing a buffer, the payload of an
operation, the two ways an operation ends (a result delivered, or an error raised: ENC's one form of exception
entry, 60_exceptions R192), and reset. ENC has no return from an exception (R194).
-/
namespace Sys2Proof.Machine

/-- Byte `a` of a buffer, or `none` where it holds no value (R21, R22). -/
def Memory.read : Memory → Nat → Option Byte
  | [], _ => none
  | (k, b) :: rest, a => if k = a then some b else Memory.read rest a

/-- A buffer with byte `a` written, its cells kept by rising index. -/
def Memory.write : Memory → Nat → Byte → Memory
  | [], a, b => [(a, b)]
  | (k, c) :: rest, a, b =>
    if a < k then (a, b) :: (k, c) :: rest
    else if a = k then (a, b) :: rest
    else (k, c) :: Memory.write rest a b

/-- The canonical form: indices strictly rising. An unlisted index has no value, so no entry can repeat what an
unlisted index reads as. -/
abbrev Memory.wf (m : Memory) : Prop := (m.map Prod.fst).Pairwise (· < ·)

/-- `MemRead(buf, a, n)` (00_scope R7), or `none` if one of the bytes holds no value. -/
def Memory.readRange (m : Memory) : Nat → Nat → Option (List Byte)
  | _, 0 => some []
  | a, n + 1 =>
    match m.read a with
    | none => none
    | some b =>
      match m.readRange (a + 1) n with
      | none => none
      | some bs => some (b :: bs)

/-- The bytes `buf[0..n)` one by one, `none` at each index that holds no value. -/
def Memory.cells (m : Memory) (n : Nat) : List (Option Byte) := (List.range n).map m.read

/-- A buffer that holds `bytes` from index `a` on and no other value. -/
def Memory.ofBytes : Nat → List Byte → Memory
  | _, [] => []
  | a, b :: bs => (a, b) :: Memory.ofBytes (a + 1) bs

/-- The payload `P = IBUF[0..ILEN)` (R21), or `none` if it includes a byte without a value. -/
def State.payload (s : State) : Option (List Byte) := s.ibuf.readRange 0 s.ilen

/-- The result `OBUF[0..OLEN)` of the last operation (R22). -/
def State.result (s : State) : Option (List Byte) := s.obuf.readRange 0 s.olen

/-- The end of an operation without error: its result stands at `OBUF[0..OLEN)`, every other byte of `OBUF`
holds no value, and `STATUS` is `{ERR = 0, DONE = 1, BUSY = 0}` (R22, R24, R26). -/
def State.deliver (s : State) (bytes : List Byte) : State :=
  { s with obuf := Memory.ofBytes 0 bytes, olen := bytes.length, status := statusOk }

/-- `raise E`: `STATUS` gets the error's code, `OLEN` is 0 and no byte of `OBUF` holds a value; the inputs are
intact (R192). -/
def State.raise (s : State) (e : Err) : State :=
  { s with obuf := [], olen := 0, status := statusError e }

/-- The end of an operation whose complete result is `bytes`: `OVF` if it does not fit (R189). -/
def State.deliverOrOvf (s : State) (bytes : List Byte) : State :=
  if bytes.length > s.cfg.obufCap then s.raise .ovf else s.deliver bytes

/-- The start every operation shares: `ILEN` is checked before any payload byte is read (R188), and a payload
with a byte that holds no value has no defined result (R21; that it comes before `OVF` is a DESIGN CHOICE, log
entry 25). -/
def State.withPayload (s : State) (unit : List Byte → State) : Result :=
  if s.ilen > s.cfg.ibufCap then .next (s.raise .ilen)
  else
    match s.payload with
    | none => .fault .noValue
    | some p => .next (unit p)

/-- Reset (R210, R211): ENC's state of R33. The configuration, the reference decoder and the host's own side are
not ENC's state and stay (DESIGN CHOICE, log entry 12). -/
def State.resetEnc (s : State) : State :=
  { State.resetOf s.cfg with dec := s.dec, script := s.script, seen := s.seen }

/-- A value read by the host is recorded. -/
def State.saw (s : State) (v : Nat) : State := { s with seen := s.seen ++ [v] }

end Sys2Proof.Machine
end

