-- ==== Sys2Proof/Machine/Checksum.lean ====
section
/-!
DEFINITION. The checksum calculator CHKU (40_checksum): `CHK`.
-/
namespace Sys2Proof.Machine

/-- `Rev8(b) = sum over i in 0..7 of b[i] << (7 - i)` (R90). -/
def rev8 (b : Byte) : Byte :=
  (List.range 8).foldl (fun acc i => acc + ((b >>> i) &&& 1#8) <<< (7 - i)) 0#8

/-- CHKU's 8-bit accumulator `sum` after the bytes `s` (R28, R91): it wraps modulo 256. -/
def chkSum (s : List Byte) : Byte := s.foldl (fun sum b => sum + rev8 b) 0#8

/-- `Chk(s) = Rev8((256 - sum) mod 256)` (R91). -/
def chk (s : List Byte) : Byte := rev8 (BitVec.ofNat 8 ((256 - (chkSum s).toNat) % 256))

/-- `CHK` (R92): the checksum byte of the payload; its only error is `ILEN`. -/
def execChk (s : State) : Result := s.withPayload fun p => s.deliver [chk p]

end Sys2Proof.Machine
end

