-- ==== Sys2Proof/Syntax.lean ====
section
/-!
DEFINITION. One constructor per row of spec/opcode_table.json: the seven command words (30_encoding R72) and
the eight token rows of the block stream (R74 to R77).
-/
namespace Sys2Proof

/-- The rows of the opcode table. A token carries its encoded fields: `d` is the 13-bit field
`{dh, dl}` = distance minus 1, `ext` the extension byte = match length minus 9 (R78). -/
inductive Instr where
  /-- `CHK`, command 0x01 (R92). -/
  | chk
  /-- `NEG`, command 0x02 (R101). -/
  | neg
  /-- `WAVE`, command 0x03 (R109). -/
  | wave
  /-- `COMP.0`, command 0x04 (R140, R145). -/
  | comp0
  /-- `COMP.1`, command 0x05 (R140, R147). -/
  | comp1
  /-- `COMP.2`, command 0x06 (R140, R148). -/
  | comp2
  /-- `COMP.3`, command 0x07 (R140, R153). -/
  | comp3
  /-- `LIT`: a literal block with its raw bytes (R75). -/
  | lit (data : List Byte)
  /-- `DIST.S1`: length field 1, match length 3 (R76). -/
  | distS1 (d : BitVec 13)
  /-- `DIST.S2`: length field 2, match length 4 (R76). -/
  | distS2 (d : BitVec 13)
  /-- `DIST.S3`: length field 3, match length 5 (R76). -/
  | distS3 (d : BitVec 13)
  /-- `DIST.S4`: length field 4, match length 6 (R76). -/
  | distS4 (d : BitVec 13)
  /-- `DIST.S5`: length field 5, match length 7 (R76). -/
  | distS5 (d : BitVec 13)
  /-- `DIST.S6`: length field 6, match length 8 (R76). -/
  | distS6 (d : BitVec 13)
  /-- `DIST.L`: length field 7, match length `ext + 9` (R77). -/
  | distL (d : BitVec 13) (ext : BitVec 8)
  deriving DecidableEq, Repr

end Sys2Proof
end

