-- ==== Sys2Proof/Machine/Operands.lean ====
section
/-!
DEFINITION. Tokens with their true operands, and how a token row's fields give them (30_encoding R78, R83): the
operand forms of the block stream.
-/
namespace Sys2Proof.Machine

/-- A block of the compressed stream before it is laid out in bytes (00_scope R10): `LIT(bytes)` or
`DIST(len, dist)` with the true match length and distance (R83). -/
inductive Token where
  | lit (bytes : List Byte)
  | dist (len distance : Nat)
  deriving DecidableEq, Repr

/-- The operands FMT accepts (R120, R122, R130). -/
def Token.inRange : Token → Bool
  | .lit bytes => decide (1 ≤ bytes.length) && decide (bytes.length ≤ Config.maxLit)
  | .dist len distance =>
    decide (Config.minMatch ≤ len) && decide (len ≤ Config.maxMatch) &&
      decide (1 ≤ distance) && decide (distance ≤ Config.window)

/-- The distance a 13-bit field stands for: `(dh << 8 | dl) + 1` (R78). -/
def distanceOf (d : BitVec 13) : Nat := d.toNat + 1

/-- The match length of a short block: `lf + 2` (R78). -/
def shortLength (lf : Nat) : Nat := lf + 2

/-- The match length of a long block: `ext + 9` (R78). -/
def longLength (ext : BitVec 8) : Nat := ext.toNat + 9

/-- The token a table row stands for; a command is no token. -/
def tokenOf : Instr → Option Token
  | .chk => none
  | .neg => none
  | .wave => none
  | .comp0 => none
  | .comp1 => none
  | .comp2 => none
  | .comp3 => none
  | .lit data => some (.lit data)
  | .distS1 d => some (.dist (shortLength 1) (distanceOf d))
  | .distS2 d => some (.dist (shortLength 2) (distanceOf d))
  | .distS3 d => some (.dist (shortLength 3) (distanceOf d))
  | .distS4 d => some (.dist (shortLength 4) (distanceOf d))
  | .distS5 d => some (.dist (shortLength 5) (distanceOf d))
  | .distS6 d => some (.dist (shortLength 6) (distanceOf d))
  | .distL d ext => some (.dist (longLength ext) (distanceOf d))

/-- The compressor operation of a level: the level is the low two bits of the command (R71, R140). -/
def compInstr (k : Fin 4) : Instr :=
  match k with
  | 0 => .comp0
  | 1 => .comp1
  | 2 => .comp2
  | 3 => .comp3

end Sys2Proof.Machine
end

