-- ==== Sys2Proof/Machine/Formatter.lean ====
section
/-!
DEFINITION. The block formatter FMT (43_block_formatter section 1): tokens laid out in bytes, with the contract
whose violation is `INV` (R123).
-/
namespace Sys2Proof.Machine

/-- `EmitLit` (R120): the length minus one, then the raw bytes. -/
def emitLit (bytes : List Byte) : Except Err (List Byte) :=
  if bytes.length < 1 ∨ bytes.length > Config.maxLit then .error .inv
  else .ok (BitVec.ofNat 8 (bytes.length - 1) :: bytes)

/-- `EmitDist` (R122), with `d = dist - 1` and `l = len - 2`. -/
def emitDist (pos : ExtBytePos) (len dist : Nat) : Except Err (List Byte) :=
  if len < Config.minMatch ∨ len > Config.maxMatch ∨ dist < 1 ∨ dist > Config.window then .error .inv
  else
    let d := dist - 1
    let l := len - 2
    if l ≥ 7 then
      let first := BitVec.ofNat 8 ((7 <<< 5) ||| (d >>> 8))
      let dl := BitVec.ofNat 8 (d &&& 0xFF)
      let ext := BitVec.ofNat 8 (l - 7)
      match pos with
      | .trailing => .ok [first, dl, ext]
      | .middle => .ok [first, ext, dl]
    else .ok [BitVec.ofNat 8 ((l <<< 5) ||| (d >>> 8)), BitVec.ofNat 8 (d &&& 0xFF)]

/-- The block of one token. -/
def emit (pos : ExtBytePos) : Token → Except Err (List Byte)
  | .lit bytes => emitLit bytes
  | .dist len dist => emitDist pos len dist

/-- `Encode(tokens)`: the blocks in order (R124), or the first contract violation. -/
def encodeTokens (pos : ExtBytePos) : List Token → Except Err (List Byte)
  | [] => .ok []
  | t :: rest =>
    match emit pos t with
    | .error e => .error e
    | .ok block =>
      match encodeTokens pos rest with
      | .error e => .error e
      | .ok blocks => .ok (block ++ blocks)

/-- A run of bytes cut into pieces of 32, the short one last; `fuel` bounds the number of pieces (R121). -/
def chunksFuel : Nat → List Byte → List (List Byte)
  | 0, _ => []
  | _ + 1, [] => []
  | fuel + 1, b :: bs =>
    (b :: bs).take Config.maxLit :: chunksFuel fuel ((b :: bs).drop Config.maxLit)

/-- The pieces of a literal run (R121): 32 bytes each, the remainder last, nothing for the empty run. -/
def chunks (bytes : List Byte) : List (List Byte) := chunksFuel bytes.length bytes

/-- `Lits(b)`, the token form of a literal run (R121, R145). -/
def lits (bytes : List Byte) : List Token := (chunks bytes).map .lit

/-- `EmitLits` (R121), the pseudo-token `LITS` (R84). A literal block does not depend on `EXT_BYTE_POS`. -/
def emitLits (bytes : List Byte) : Except Err (List Byte) := encodeTokens .trailing (lits bytes)

/-- The size in bytes of a token's block (R124). -/
def Token.cost : Token → Nat
  | .lit bytes => 1 + bytes.length
  | .dist len _ => if len < 9 then 2 else 3

end Sys2Proof.Machine
end

