-- ==== Sys2Proof/Machine/Compressor.lean ====
section
/-!
DEFINITION. The stream compressor CMPU (44_compressor): matching, the greedy loop of levels 1 and 2, the
shortest path of level 3, and `COMP.0` to `COMP.3`.
-/
namespace Sys2Proof.Machine

/-- `P[i..j)` (00_scope R6). -/
def slice (p : List Byte) (i j : Nat) : List Byte := (p.drop i).take (j - i)

/-- The number of leading bytes two sequences share, at most `limit`. -/
def runLength : Nat → List Byte → List Byte → Nat
  | 0, _, _ => 0
  | _ + 1, [], _ => 0
  | _ + 1, _ :: _, [] => 0
  | limit + 1, x :: xs, y :: ys => if x = y then runLength limit xs ys + 1 else 0

/-- `MatchLen(P, pos, D)` (R141): how many bytes at `pos` equal the bytes `D` places earlier, capped at 264 and
at the payload's end. The compared regions may overlap. -/
def matchLen (p : List Byte) (pos D : Nat) : Nat :=
  runLength (min Config.maxMatch (p.length - pos)) (p.drop pos) (p.drop (pos - D))

/-- `Candidates(pos)` in increasing order: `1, 2, ..., min(pos, 8192)` (R142). -/
def candidates (pos : Nat) : List Nat := List.range' 1 (min pos Config.window)

/-- A match: its length and its distance. -/
structure Match where
  len : Nat
  dist : Nat
  deriving DecidableEq, Repr

/-- `FirstMatch(P, pos)` (R143): the smallest distance whose match length reaches 3. -/
def firstMatch (p : List Byte) (pos : Nat) : Option Match :=
  (candidates pos).findSome? fun D =>
    if Config.minMatch ≤ matchLen p pos D then some ⟨matchLen p pos D, D⟩ else none

/-- Keep the longer match; on equal length the one already held, which is at the smaller distance (R144). -/
def longer (best : Option Match) (m : Match) : Option Match :=
  match best with
  | none => some m
  | some b => if b.len < m.len then some m else some b

/-- `BestMatch(P, pos)` (R144): the largest match length, at the smallest distance that attains it. -/
def bestMatch (p : List Byte) (pos : Nat) : Option Match :=
  (candidates pos).foldl (fun best D => longer best ⟨matchLen p pos D, D⟩) none

/-- The match a greedy level takes at `pos`: none below length 3 (R146). -/
def usable (m : Option Match) : Option Match :=
  m.bind fun b => if Config.minMatch ≤ b.len then some b else none

/-- The greedy loop (R146) from the cursors `pos` and `litStart` (R29): the tokens still to come. Each turn
advances `pos`, so the payload's length is fuel enough. -/
def greedyLoop (select : Nat → Option Match) (p : List Byte) : Nat → Nat → Nat → List Token
  | 0, pos, litStart => lits (slice p litStart pos)
  | fuel + 1, pos, litStart =>
    if pos < p.length then
      match usable (select pos) with
      | some m =>
        lits (slice p litStart pos) ++
          .dist m.len m.dist :: greedyLoop select p fuel (pos + m.len) (pos + m.len)
      | none => greedyLoop select p fuel (pos + 1) litStart
    else lits (slice p litStart pos)

/-- `Greedy(P, Select)` (R146). -/
def greedy (p : List Byte) (select : List Byte → Nat → Option Match) : List Token :=
  greedyLoop (select p) p p.length 0 0

/-- An entry of the level-3 table (R30): the cost of the cheapest known encoding of `P[0..i)`, and the length
and distance of its last edge (distance 0 marks a literal edge). -/
structure Node where
  cost : Nat
  elen : Nat
  edist : Nat
  deriving DecidableEq, Repr

/-- The level-3 table: `none` is an unreached node. -/
abbrev CostTable := List (Option Node)

/-- An edge of the cost graph: its length, its distance (0 for a literal edge) and its cost (R150). -/
structure Edge where
  len : Nat
  dist : Nat
  cost : Nat
  deriving DecidableEq, Repr

/-- The match edges out of node `i`, by increasing length (R150, R151). -/
def matchEdges (p : List Byte) (i : Nat) : List Edge :=
  match usable (bestMatch p i) with
  | some m => (List.range' 3 (m.len - 2)).map fun l => ⟨l, m.dist, if l < 9 then 2 else 3⟩
  | none => []

/-- The literal edges out of node `i`, by increasing length (R150, R151). -/
def literalEdges (p : List Byte) (i : Nat) : List Edge :=
  (List.range' 1 (min Config.maxLit (p.length - i))).map fun l => ⟨l, 0, 1 + l⟩

/-- `Relax(i, l, d, c)` (R151): an entry is replaced only by a strictly smaller cost. -/
def relax (i : Nat) (t : CostTable) (e : Edge) : CostTable :=
  match t[i]?.join with
  | none => t
  | some from_ =>
    match t[i + e.len]?.join with
    | none => t.set (i + e.len) (some ⟨from_.cost + e.cost, e.len, e.dist⟩)
    | some old =>
      if from_.cost + e.cost < old.cost then
        t.set (i + e.len) (some ⟨from_.cost + e.cost, e.len, e.dist⟩)
      else t

/-- All edges out of node `i` relaxed, match edges first (R151). -/
def relaxNode (p : List Byte) (t : CostTable) (i : Nat) : CostTable :=
  (matchEdges p i ++ literalEdges p i).foldl (relax i) t

/-- The table before the forward pass: node 0 at cost 0, every other node unreached (R151). -/
def initTable (n : Nat) : CostTable := some ⟨0, 0, 0⟩ :: List.replicate n none

/-- The table after the forward dynamic programming (R151). -/
def costTable (p : List Byte) : CostTable :=
  (List.range p.length).foldl (relaxNode p) (initTable p.length)

/-- The reconstruction (R152): predecessor edges from node `at_` back to node 0, prepended to `path` as triples
(start, length, distance). Every edge has length at least 1, so `at_` is fuel enough. -/
def walkBack (t : CostTable) : Nat → Nat → List (Nat × Nat × Nat) → List (Nat × Nat × Nat)
  | 0, _, path => path
  | fuel + 1, at_, path =>
    if at_ = 0 then path
    else
      match t[at_]?.join with
      | none => path
      | some e => walkBack t fuel (at_ - e.elen) ((at_ - e.elen, e.elen, e.edist) :: path)

/-- The token of an edge of the path (R153). -/
def edgeToken (p : List Byte) (e : Nat × Nat × Nat) : Token :=
  match e with
  | (start, l, d) => if d = 0 then .lit (slice p start (start + l)) else .dist l d

/-- `Tokens_0(P) = Lits(P)` (R145). -/
def tokens0 (p : List Byte) : List Token := lits p

/-- `Tokens_1(P) = Greedy(P, FirstMatch)` (R147). -/
def tokens1 (p : List Byte) : List Token := greedy p firstMatch

/-- `Tokens_2(P) = Greedy(P, BestMatch)` (R148, R149). -/
def tokens2 (p : List Byte) : List Token := greedy p bestMatch

/-- `Tokens_3(P)` (R153). -/
def tokens3 (p : List Byte) : List Token :=
  (walkBack (costTable p) p.length p.length []).map (edgeToken p)

/-- `Tokens_k(P)` (R140). -/
def tokens (k : Fin 4) (p : List Byte) : List Token :=
  match k with
  | 0 => tokens0 p
  | 1 => tokens1 p
  | 2 => tokens2 p
  | 3 => tokens3 p

/-- What every level does with its tokens (R140): lay them out, end with FMT's error if there is one, and check
the whole result against the output buffer. -/
def State.compress (s : State) (toks : List Byte → List Token) : Result :=
  s.withPayload fun p =>
    match encodeTokens s.cfg.extPos (toks p) with
    | .error e => s.raise e
    | .ok stream => s.deliverOrOvf stream

/-- `COMP.0` (R140, R145): copy. -/
def execComp0 (s : State) : Result := s.compress tokens0

/-- `COMP.1` (R140, R147): greedy-first. -/
def execComp1 (s : State) : Result := s.compress tokens1

/-- `COMP.2` (R140, R148): greedy-best. -/
def execComp2 (s : State) : Result := s.compress tokens2

/-- `COMP.3` (R140, R153): optimal. -/
def execComp3 (s : State) : Result := s.compress tokens3

end Sys2Proof.Machine
end

