-- ==== Sys2Proof/Machine/Negator.lean ====
section
/-!
DEFINITION. The frame negator NEGU (41_negator): `NEG`.
-/
namespace Sys2Proof.Machine

/-- `Neg(s)[i] = s[i] ^ 0xFF` (R100). -/
def neg (s : List Byte) : List Byte := s.map fun b => b ^^^ 0xFF#8

/-- `NEG` (R101): the byte-wise complement of the payload. -/
def execNeg (s : State) : Result := s.withPayload fun p => s.deliverOrOvf (neg p)

end Sys2Proof.Machine
end

