-- ==== Sys2Proof/WellFormed.lean ====
section
/-!
DEFINITION. Which terms of `Instr` an encoding exists for. Only `LIT` can be ill formed: "A literal block of
length 0 does not exist", and its length field has 5 bits (30_encoding R75). Every distance block is legal by
its bits alone (R80), and a command has no operand.
-/
namespace Sys2Proof

/-- A literal block carries 1 to 32 bytes (R75, R130). -/
def Instr.wf : Instr → Bool
  | .chk => true
  | .neg => true
  | .wave => true
  | .comp0 => true
  | .comp1 => true
  | .comp2 => true
  | .comp3 => true
  | .lit data => decide (1 ≤ data.length) && decide (data.length ≤ Config.maxLit)
  | .distS1 _ => true
  | .distS2 _ => true
  | .distS3 _ => true
  | .distS4 _ => true
  | .distS5 _ => true
  | .distS6 _ => true
  | .distL _ _ => true

/-- The well-formed instructions. -/
abbrev Instr.WellFormed (i : Instr) : Prop := i.wf = true

/-- Whether the row stands in the command space (written to `CMD`), as opposed to the block stream: the
`space` of the opcode table's row. -/
def Instr.isCommand : Instr → Bool
  | .chk => true
  | .neg => true
  | .wave => true
  | .comp0 => true
  | .comp1 => true
  | .comp2 => true
  | .comp3 => true
  | .lit _ => false
  | .distS1 _ => false
  | .distS2 _ => false
  | .distS3 _ => false
  | .distS4 _ => false
  | .distS5 _ => false
  | .distS6 _ => false
  | .distL _ _ => false

/-- The size of an instruction in bytes: 1 for a command word (R70), and 30_encoding R79 for a block. -/
def Instr.size : Instr → Nat
  | .chk => 1
  | .neg => 1
  | .wave => 1
  | .comp0 => 1
  | .comp1 => 1
  | .comp2 => 1
  | .comp3 => 1
  | .lit data => 1 + data.length
  | .distS1 _ => 2
  | .distS2 _ => 2
  | .distS3 _ => 2
  | .distS4 _ => 2
  | .distS5 _ => 2
  | .distS6 _ => 2
  | .distL _ _ => 3

end Sys2Proof
end

