-- ==== Sys2Proof/Decode.lean ====
section
/-!
DEFINITION. Decoding and encoding in ENC's two spaces (30_encoding): the command word written to `CMD` (R71 to
R73) and the blocks of the compressed stream (R74 to R79). Both decoders are total and reject by name.
-/
namespace Sys2Proof

/-- Why bytes are no instruction. -/
inductive DecodeError where
  /-- A reserved command word (R73). -/
  | reserved
  /-- The stream ends inside a block (R81 (a), R128 `TRUNC`). -/
  | truncated
  deriving DecidableEq, Repr

/-- The command decoder: `CMD[7:4]` must be 0 and `CMD[3:0]` is the operation code (R71, R72); all else is
reserved (R73). -/
def decodeCommand (c : Byte) : Except DecodeError Instr :=
  if c.extractLsb' 4 4 = 0#4 then
    match (c.extractLsb' 0 4).toNat with
    | 1 => .ok .chk
    | 2 => .ok .neg
    | 3 => .ok .wave
    | 4 => .ok .comp0
    | 5 => .ok .comp1
    | 6 => .ok .comp2
    | 7 => .ok .comp3
    | _ => .error .reserved
  else .error .reserved

/-- A literal block after its first byte: `n` raw bytes, in order (R75). -/
def decodeLit (n : Nat) (rest : List Byte) : Except DecodeError (Instr × List Byte) :=
  if rest.length < n then .error .truncated else .ok (.lit (rest.take n), rest.drop n)

/-- A short distance block after its first byte: one byte `dl`, so `d = {dh, dl}` (R76). -/
def decodeShort (row : BitVec 13 → Instr) (dh : BitVec 5) :
    List Byte → Except DecodeError (Instr × List Byte)
  | dl :: rest => .ok (row (dh ++ dl), rest)
  | [] => .error .truncated

/-- A long distance block after its first byte: `dl` then `ext`, or with `EXT_BYTE_POS = middle` `ext` then
`dl` (R77). -/
def decodeLong (pos : ExtBytePos) (dh : BitVec 5) :
    List Byte → Except DecodeError (Instr × List Byte)
  | b1 :: b2 :: rest =>
    match pos with
    | .trailing => .ok (.distL (dh ++ b1) b2, rest)
    | .middle => .ok (.distL (dh ++ b2) b1, rest)
  | _ => .error .truncated

/-- The first block of a stream and what follows it. The top three bits of the first byte decide the kind
(R74, R79). -/
def decodeToken (pos : ExtBytePos) : List Byte → Except DecodeError (Instr × List Byte)
  | [] => .error .truncated
  | h :: rest =>
    match (h.extractLsb' 5 3).toNat with
    | 0 => decodeLit ((h.extractLsb' 0 5).toNat + 1) rest
    | 1 => decodeShort .distS1 (h.extractLsb' 0 5) rest
    | 2 => decodeShort .distS2 (h.extractLsb' 0 5) rest
    | 3 => decodeShort .distS3 (h.extractLsb' 0 5) rest
    | 4 => decodeShort .distS4 (h.extractLsb' 0 5) rest
    | 5 => decodeShort .distS5 (h.extractLsb' 0 5) rest
    | 6 => decodeShort .distS6 (h.extractLsb' 0 5) rest
    | _ => decodeLong pos (h.extractLsb' 0 5) rest

/-- The two bytes of a distance block's 16-bit pattern `{lf, d}`, high byte first (R54, R76). -/
def encodeShort (lf : BitVec 3) (d : BitVec 13) : List Byte :=
  [lf ++ d.extractLsb' 8 5, d.extractLsb' 0 8]

/-- The bytes of an instruction: its command word (R72), or its block (R75 to R77). -/
def encode (pos : ExtBytePos) : Instr → List Byte
  | .chk => [0x01#8]
  | .neg => [0x02#8]
  | .wave => [0x03#8]
  | .comp0 => [0x04#8]
  | .comp1 => [0x05#8]
  | .comp2 => [0x06#8]
  | .comp3 => [0x07#8]
  | .lit data => (0#3 ++ BitVec.ofNat 5 (data.length - 1)) :: data
  | .distS1 d => encodeShort 1#3 d
  | .distS2 d => encodeShort 2#3 d
  | .distS3 d => encodeShort 3#3 d
  | .distS4 d => encodeShort 4#3 d
  | .distS5 d => encodeShort 5#3 d
  | .distS6 d => encodeShort 6#3 d
  | .distL d ext =>
    match pos with
    | .trailing => encodeShort 7#3 d ++ [ext]
    | .middle => [7#3 ++ d.extractLsb' 8 5, ext, d.extractLsb' 0 8]

/-- The first 33 bytes (the longest block, R70) of an instruction the opcode table numbers as the `nbits` low
bits of `w`: the first byte is bits 7 to 0, and every bit at or above `nbits` is 0. -/
def tableBytes (nbits w : Nat) : List Byte :=
  (List.range 33).map fun k => BitVec.ofNat 8 ((w % 2 ^ nbits) >>> (8 * k))

/-- The command a table word of at most one byte stands for, if it is no reserved one. -/
def tableCommand (nbits w : Nat) : Option Instr :=
  if nbits ≤ 8 then (decodeCommand (BitVec.ofNat 8 (w % 2 ^ nbits))).toOption else none

/-- What the decoders read from a word of the opcode table. DESIGN CHOICE (log entry 6): the table's rows
stand in two spaces whose first bytes overlap (0x01 to 0x07 are commands there and `LIT` heads here); a word of
at most 8 bits is a command where it is one, and the head of a block otherwise; a longer word is a block. -/
def decodeTableWord (nbits w : Nat) : Option Instr :=
  match tableCommand nbits w with
  | some i => some i
  | none =>
    match decodeToken Config.recommended.extPos (tableBytes nbits w) with
    | .ok (i, _) => some i
    | .error _ => none

end Sys2Proof
end

