-- ==== Sys2Proof/Machine/RefDecoder.lean ====
section
/-!
DEFINITION. The reference decoder (43_block_formatter sections 2 and 3): replaying tokens, `Decode`, and the
meaning of each token row as one step of the decoder.
-/
namespace Sys2Proof.Machine

/-- `k` bytes appended one at a time, each the byte `dist` places before the current end (R62, R127). -/
def copyBytes (dist : Nat) : Nat → List Byte → List Byte
  | 0, out => out
  | k + 1, out => copyBytes dist k (out ++ [out.getD (out.length - dist) 0#8])

/-- One token replayed onto the output so far (R126, R127, R129). A distance block is valid only when its
distance reaches no further back than the output. -/
def replayToken (t : Token) (out : List Byte) : Option (List Byte) :=
  match t with
  | .lit bytes => some (out ++ bytes)
  | .dist len dist => if dist < 1 ∨ dist > out.length then none else some (copyBytes dist len out)

/-- Tokens replayed in order onto `out`. -/
def replayFrom : List Token → List Byte → Option (List Byte)
  | [], out => some out
  | t :: rest, out =>
    match replayToken t out with
    | none => none
    | some out' => replayFrom rest out'

/-- `Replay(tokens)` (R129), or `none` if a token is not valid at its point (R85). -/
def replay (tokens : List Token) : Option (List Byte) := replayFrom tokens []

/-- The decoder's two faults (R128). -/
inductive DecFault where
  /-- The stream ends inside a block. -/
  | trunc
  /-- A distance block points before the start of the output. -/
  | dist
  deriving DecidableEq, Repr

/-- The decoder's loop (R125): one block after another until the stream is used up. Each block takes at least
one byte, so the stream's length is fuel enough. -/
def decodeLoop (pos : ExtBytePos) : Nat → List Byte → List Byte → Except DecFault (List Byte)
  | _, [], out => .ok out
  | 0, _ :: _, _ => .error .trunc
  | fuel + 1, h :: rest, out =>
    match decodeToken pos (h :: rest) with
    | .error _ => .error .trunc
    | .ok (i, rest') =>
      match (tokenOf i).bind fun t => replayToken t out with
      | none => .error .dist
      | some out' => decodeLoop pos fuel rest' out'

/-- `Decode(s)` (R125). -/
def decodeStream (pos : ExtBytePos) (s : List Byte) : Except DecFault (List Byte) :=
  decodeLoop pos s.length s []

/-- One step of the decoder: the token `t`, whose block has `size` bytes, is replayed and the input index moves
past it (R126, R127), or the decoder faults with `DIST` (R128). -/
def State.replayStep (s : State) (t : Token) (size : Nat) : Result :=
  match replayToken t s.dec.out with
  | none => .fault .decDist
  | some out => .next { s with dec := { s.dec with i := s.dec.i + size, out := out } }

/-- `LIT` (R126): append the data bytes. -/
def execLit (data : List Byte) (s : State) : Result :=
  if data.length < 1 ∨ data.length > Config.maxLit then .refused .illFormed
  else s.replayStep (.lit data) (1 + data.length)

/-- `DIST.S1` (R127): copy 3 bytes. -/
def execDistS1 (d : BitVec 13) (s : State) : Result :=
  s.replayStep (.dist (shortLength 1) (distanceOf d)) 2

/-- `DIST.S2` (R127): copy 4 bytes. -/
def execDistS2 (d : BitVec 13) (s : State) : Result :=
  s.replayStep (.dist (shortLength 2) (distanceOf d)) 2

/-- `DIST.S3` (R127): copy 5 bytes. -/
def execDistS3 (d : BitVec 13) (s : State) : Result :=
  s.replayStep (.dist (shortLength 3) (distanceOf d)) 2

/-- `DIST.S4` (R127): copy 6 bytes. -/
def execDistS4 (d : BitVec 13) (s : State) : Result :=
  s.replayStep (.dist (shortLength 4) (distanceOf d)) 2

/-- `DIST.S5` (R127): copy 7 bytes. -/
def execDistS5 (d : BitVec 13) (s : State) : Result :=
  s.replayStep (.dist (shortLength 5) (distanceOf d)) 2

/-- `DIST.S6` (R127): copy 8 bytes. -/
def execDistS6 (d : BitVec 13) (s : State) : Result :=
  s.replayStep (.dist (shortLength 6) (distanceOf d)) 2

/-- `DIST.L` (R127): copy `ext + 9` bytes. -/
def execDistL (d : BitVec 13) (ext : BitVec 8) (s : State) : Result :=
  s.replayStep (.dist (longLength ext) (distanceOf d)) 3

end Sys2Proof.Machine
end

