-- ==== Sys2Proof/Machine/Waveform.lean ====
section
/-!
DEFINITION. The waveform builder WFBU (42_waveform): `WAVE`, with the timing table (10_state R27), the two-frame
train (R110) and the normalisation of textual timing specifications (R113).
-/
namespace Sys2Proof.Machine

/-- The timing table, hardwired (R27, R106). -/
def timingTable : Timing where
  hdr := [4497#16, 4497#16]
  one := [588#16, 1657#16]
  zero := [588#16, 588#16]
  gap := [588#16, 5601#16]

/-- The bits of one byte, most significant first (R53, R105). -/
def byteBits (b : Byte) : List Bool := (List.range 8).map fun j => b.getLsbD (7 - j)

/-- `Bits(s)` (R105). -/
def bits (s : List Byte) : List Bool := s.flatMap byteBits

/-- `E(0) = zero`, `E(1) = one` (R107). -/
def pulsesOfBit (t : Timing) (b : Bool) : List Pulse := if b then t.one else t.zero

/-- `Wave(bits) = hdr ++ E(bits[0]) ++ ... ++ gap` (R107), for lists of any length. -/
def wave (t : Timing) (bs : List Bool) : List Pulse := t.hdr ++ bs.flatMap (pulsesOfBit t) ++ t.gap

/-- One duration as two bytes, low byte first (R52). -/
def serPulse (w : Pulse) : List Byte := [w.extractLsb' 0 8, w.extractLsb' 8 8]

/-- `Ser16(t)` (R108). -/
def ser16 (t : List Pulse) : List Byte := t.flatMap serPulse

/-- `WAVE` (R109): the serialised pulse train of the payload's bits. -/
def execWave (s : State) : Result :=
  s.withPayload fun p => s.deliverOrOvf (ser16 (wave timingTable (bits p)))

/-- `Train(F) = Wave(Bits(F)) ++ Wave(Bits(Neg(F)))` (R110); ENC has no single operation for it. -/
def train (t : Timing) (f : List Byte) : List Pulse := wave t (bits f) ++ wave t (bits (neg f))

/-- The five separators of a textual timing specification (R113). -/
def isSeparator (c : Char) : Bool :=
  c == ',' || c == ' ' || c == ';' || c == '+' || c == '-'

/-- The tokens of a timing string that are not empty, `cur` being the one being read (R113 `Split`). -/
def splitTiming : List Char → List Char → List (List Char)
  | [], cur => if cur.isEmpty then [] else [cur]
  | c :: cs, cur =>
    if isSeparator c then (if cur.isEmpty then splitTiming cs [] else cur :: splitTiming cs [])
    else splitTiming cs (cur ++ [c])

/-- A token as an unsigned decimal integer, or `none` if it is not all digits: it then has no defined meaning
(R113, N14), and the string is no admissible specification (U13). -/
def decimal (tok : List Char) : Option Nat :=
  tok.foldl (fun acc c =>
    match acc with
    | none => none
    | some n => if c.isDigit then some (10 * n + (c.toNat - '0'.toNat)) else none) (some 0)

/-- `Normalise(str)` (R113). -/
def normalise (str : List Char) : Option (List Nat) := (splitTiming str []).mapM decimal

/-- The durations of a textual specification; one above 65535 is no admissible configuration (R108, U13). -/
def pulsesOfText (str : List Char) : Option (List Pulse) :=
  match normalise str with
  | none => none
  | some ns => ns.mapM fun n => if n < 65536 then some (BitVec.ofNat 16 n) else none

end Sys2Proof.Machine
end

