-- ==== Sys2Proof/Machine/Dispatch.lean ====
section
/-!
DEFINITION. The meaning of every row of the opcode table, one arm each.
-/
namespace Sys2Proof.Machine

def exec (i : Instr) (s : State) : Host.Outcome State Fault Refusal :=
  match i with
  | .chk => Sys2Proof.Machine.execChk s
  | .neg => Sys2Proof.Machine.execNeg s
  | .wave => Sys2Proof.Machine.execWave s
  | .comp0 => Sys2Proof.Machine.execComp0 s
  | .comp1 => Sys2Proof.Machine.execComp1 s
  | .comp2 => Sys2Proof.Machine.execComp2 s
  | .comp3 => Sys2Proof.Machine.execComp3 s
  | .lit data => Sys2Proof.Machine.execLit data s
  | .distS1 d => Sys2Proof.Machine.execDistS1 d s
  | .distS2 d => Sys2Proof.Machine.execDistS2 d s
  | .distS3 d => Sys2Proof.Machine.execDistS3 d s
  | .distS4 d => Sys2Proof.Machine.execDistS4 d s
  | .distS5 d => Sys2Proof.Machine.execDistS5 d s
  | .distS6 d => Sys2Proof.Machine.execDistS6 d s
  | .distL d ext => Sys2Proof.Machine.execDistL d ext s

end Sys2Proof.Machine
end

