-- ==== Sys2Proof/Machine/Fetch.lean ====
section
/-!
DEFINITION. What the next step does: the host's next move (20_memory R56, R57, R65), the instruction a `CMD`
write starts (10_state R25) or the block the reference decoder has reached (43_block_formatter R125).
-/
namespace Sys2Proof.Machine

/-- What a step has before it: an instruction to run from a state, or an outcome already settled. -/
inductive Fetched where
  | run (i : Instr) (s : State)
  | done (r : Result)

/-- The value of register `r`: `CMD`, `STATUS`, `ILEN`, `OLEN` at indices 0 to 3 (R58). -/
def State.readReg (s : State) (r : Nat) : Option Nat :=
  match r with
  | 0 => some s.cmd.toNat
  | 1 => some s.status.toNat
  | 2 => some s.ilen
  | 3 => some s.olen
  | _ => none

/-- A write of `c` to `CMD` (R25): `CMD` keeps the value, and the operation it encodes starts; a reserved word
ends at once with `ILLOP` (R73, R187). -/
def acceptCommand (s : State) (c : Byte) : Fetched :=
  match decodeCommand c with
  | .ok i => .run i { s with cmd := c }
  | .error _ => .done (.next (State.raise { s with cmd := c } .illop))

/-- A host write of `v` to register `r`: `CMD` starts an operation, `ILEN` takes the value, a write of `STATUS`
or `OLEN` is ignored (R23 to R26, R57); there is no other register (R65). -/
def writeReg (s : State) (r v : Nat) : Fetched :=
  match r with
  | 0 => if v < 256 then acceptCommand s (BitVec.ofNat 8 v) else .done (.refused .valueTooWide)
  | 1 => if v < 256 then .done (.next s) else .done (.refused .valueTooWide)
  | 2 => if v < 2 ^ s.cfg.lenW then .done (.next { s with ilen := v }) else .done (.refused .valueTooWide)
  | 3 => if v < 2 ^ s.cfg.lenW then .done (.next s) else .done (.refused .valueTooWide)
  | _ => .done (.refused .noSuchRegister)

/-- A host read of register `r` (R57): no side effect on ENC. -/
def readReg (s : State) (r : Nat) : Result :=
  match s.readReg r with
  | some v => .next (s.saw v)
  | none => .refused .noSuchRegister

/-- A host write of `IBUF[i]` (R21, R57). -/
def writeIbuf (s : State) (i : Nat) (b : Byte) : Result :=
  if i < s.cfg.ibufCap then .next { s with ibuf := s.ibuf.write i b } else .refused .noSuchByte

/-- A host write of `OBUF[i]`: ignored (R57). -/
def writeObuf (s : State) (i : Nat) : Result :=
  if i < s.cfg.obufCap then .next s else .refused .noSuchByte

/-- A host read of `OBUF[i]`; a byte without a value faults (R22, U7). -/
def readObuf (s : State) (i : Nat) : Result :=
  if i < s.cfg.obufCap then
    match s.obuf.read i with
    | some b => .next (s.saw b.toNat)
    | none => .fault .noValue
  else .refused .noSuchByte

/-- The reference decoder's next block (R125): nothing left to do at the stream's end, `TRUNC` where the stream
ends inside a block (R128). -/
def nextBlock (s : State) : Fetched :=
  if s.dec.i < s.dec.stream.length then
    match decodeToken s.cfg.extPos (s.dec.stream.drop s.dec.i) with
    | .ok (i, _) => .run i s
    | .error _ => .done (.fault .decTrunc)
  else .done (.next s)

/-- One move of the host. -/
def hostMove (s : State) : HostMove → Fetched
  | .writeReg r v => writeReg s r v
  | .readReg r => .done (readReg s r)
  | .writeIbuf i b => .done (writeIbuf s i b)
  | .readIbuf _ => .done (.refused .ibufWriteOnly)
  | .writeObuf i _ => .done (writeObuf s i)
  | .readObuf i => .done (readObuf s i)
  | .reset => .done (.next s.resetEnc)
  | .loadStream bytes => .done (.next { s with dec := ⟨bytes, 0, []⟩ })
  | .replayBlock => nextBlock s

/-- What the next step does. With no host move to come ENC is idle and keeps all its state (R200; DEDUCED, log
entry 13). -/
def fetch (s : State) : Fetched :=
  match s.script with
  | [] => .done (.next s)
  | m :: rest => hostMove { s with script := rest } m

/-- The state `s` with the instruction of a table word placed where the next step takes it from: a command is
the host's next move, a `CMD` write; a block is put before the reference decoder, which is moved next
(DESIGN CHOICE, log entry 2). -/
def placeWord (s : State) (nbits w : Nat) : State :=
  match tableCommand nbits w with
  | some _ => { s with script := .writeReg 0 (w % 2 ^ nbits) :: s.script }
  | none =>
    { s with
      dec := { s.dec with stream := tableBytes nbits w, i := 0 }
      script := .replayBlock :: s.script }

end Sys2Proof.Machine
end

