-- ==== Sys2Proof/Machine/Step.lean ====
section
/-!
DEFINITION. One step of the machine: the host's next move, and the whole operation it starts (70_reset R216).
-/
namespace Sys2Proof.Machine

/-- The end of what was fetched: the instruction runs, or the outcome stands. -/
def finish (f : Fetched) : Result :=
  match f with
  | .run i s => exec i s
  | .done r => r

/-- One transition. A `CMD` write and its operation are one step (R216). -/
def step (s : State) : Host.Outcome State Fault Refusal := finish (fetch s)

/-- `s` with a word of the opcode table stored where `step` takes its next instruction. -/
def State.withFetchWord (s : State) (nbits w : Nat) : State := placeWord s nbits w

end Sys2Proof.Machine
end

