-- ==== Sys2Proof/Machine/HostPipeline.lean ====
section
/-!
DEFINITION. The host's software around ENC (45_host_pipeline): frame builder, text encoder, and the pipeline as a
host script on the machine. It adds no state and no operation to ENC.
-/
namespace Sys2Proof.Machine

/-- `ROUND_MODE` (R172, U1). -/
inductive RoundMode where
  | halfEven
  | halfUp
  deriving DecidableEq, Repr

/-- `VALUE_CLAMP` (R173, U2). -/
inductive ValueClamp where
  | saturate
  | wrap
  deriving DecidableEq, Repr

/-- The host's parameters: the first two have no default (U1, U2), the last two have the spec's (R174, R179). -/
structure HostParams where
  roundMode : RoundMode
  valueClamp : ValueClamp
  lowerInclusive : Bool := true
  level : Fin 4 := 2
  deriving DecidableEq, Repr

/-- What the host is given as a temperature (DESIGN CHOICE, log entry 15): the real number `num / den`, or a representation
that is no number (R177). -/
inductive TempInput where
  | fraction (num : Int) (den : Nat)
  | nonNumeric
  deriving DecidableEq, Repr

/-- Why no code string is produced (R177): the two errors of the source's frame stage, and an ENC operation
that ended with an error or did not end. -/
inductive HostError where
  | inputRange
  | parse
  | encError (status : Byte)
  | encStopped
  deriving DecidableEq, Repr

/-- The nearest integer (R172). At an exact half `half_even` takes the even one; `half_up` the upper one, but
below zero its direction is a free value (log entry 14). -/
def roundNearest (m : RoundMode) (num : Int) (den : Nat) : Int :=
  let q := num / (den : Int)
  let r := num % (den : Int)
  if 2 * r < den then q
  else if (den : Int) < 2 * r then q + 1
  else
    match m with
    | .halfEven => if q % 2 = 0 then q else q + 1
    | .halfUp => if 0 ≤ num ∨ Config.halfUpNegativeTowardPlus = true then q + 1 else q

/-- `v`, clamped to a byte (R173). -/
def valueByte (c : ValueClamp) (v : Int) : Byte :=
  match c with
  | .saturate => if v < 0 then 0#8 else BitVec.ofInt 8 v
  | .wrap => BitVec.ofInt 8 v

/-- The accepted range: `-30 <= t < 70`, the lower bound excluded if the parameter says so (R174). -/
def tempInRange (lowerInclusive : Bool) (num : Int) (den : Nat) : Bool :=
  (if lowerInclusive then decide (-30 * (den : Int) ≤ num) else decide (-30 * (den : Int) < num)) &&
    decide (num < 70 * (den : Int))

/-- The five bytes before the checksum (R171). -/
def frameBytes (v : Byte) : List Byte := [0xA4#8, 0x82#8, 0x48#8, 0x7F#8, v]

/-- The frame builder up to the checksum (R171, R174, R177). -/
def buildFrame (p : HostParams) : TempInput → Except HostError (List Byte)
  | .nonNumeric => .error .parse
  | .fraction num den =>
    if den = 0 then .error .parse
    else if tempInRange p.lowerInclusive num den then
      .ok (frameBytes (valueByte p.valueClamp (roundNearest p.roundMode num den + 1)))
    else .error .inputRange

/-- The host makes the moves, one step each, before whatever it still has to do. -/
def State.drive (s : State) : List HostMove → Result
  | [] => .next s
  | m :: ms =>
    match step { s with script := m :: s.script } with
    | .next t => t.drive ms
    | .fault f => .fault f
    | .refused r => .refused r

/-- Loading a payload: its bytes into `IBUF` from index 0, then `ILEN` (R212). -/
def loadMoves (payload : List Byte) : List HostMove :=
  (payload.mapIdx fun i b => HostMove.writeIbuf i b) ++ [.writeReg 2 payload.length]

/-- One operation as the host uses it (R175): the moves, the command, the check of `STATUS`, and the copy of
`OBUF[0..OLEN)`. -/
def runOperation (moves : List HostMove) (cmd : Byte) (s : State) :
    Except HostError (List Byte × State) :=
  match s.drive (moves ++ [.writeReg 0 cmd.toNat]) with
  | .next t =>
    if statusDone t.status && decide (statusErr t.status = 0#3) then
      match t.result with
      | some r => .ok (r, t)
      | none => .error .encStopped
    else .error (.encError t.status)
  | .fault _ => .error .encStopped
  | .refused _ => .error .encStopped

/-- The pipeline's five operations on the five bytes `f5` at level `k` (R175): the compressed bytes. -/
def pipeline (k : Fin 4) (f5 : List Byte) (s : State) : Except HostError (List Byte × State) := do
  let (c, s1) ← runOperation (loadMoves f5) 0x01#8 s
  let f := f5 ++ c
  let (w1, s2) ← runOperation (loadMoves f) 0x03#8 s1
  let (n, s3) ← runOperation [] 0x02#8 s2
  let (w2, s4) ← runOperation (loadMoves n) 0x03#8 s3
  runOperation (loadMoves (w1 ++ w2)) (0x04#8 + BitVec.ofNat 8 k.val) s4

/-- The standard base64 alphabet (R176, U10; PRESUMED, log entry 17). -/
def base64Char (v : BitVec 6) : Char :=
  ("ABCDEFGHIJKLMNOPQRSTUVWXYZabcdefghijklmnopqrstuvwxyz0123456789+/".toList).getD v.toNat '='

/-- `Base64NoBreaks(Z)` (R176): three bytes as four characters, most significant bits first, the `=` padding
kept, no line breaks. -/
def base64 : List Byte → List Char
  | [] => []
  | [a] =>
    [base64Char (a.extractLsb' 2 6), base64Char (a.extractLsb' 0 2 ++ 0#4), '=', '=']
  | [a, b] =>
    [base64Char (a.extractLsb' 2 6), base64Char (a.extractLsb' 0 2 ++ b.extractLsb' 4 4),
      base64Char (b.extractLsb' 0 4 ++ 0#2), '=']
  | a :: b :: c :: rest =>
    base64Char (a.extractLsb' 2 6) :: base64Char (a.extractLsb' 0 2 ++ b.extractLsb' 4 4) ::
      base64Char (b.extractLsb' 0 4 ++ c.extractLsb' 6 2) :: base64Char (c.extractLsb' 0 6) :: base64 rest

/-- `encode_temperature` (R170, R175): the code string, or the error reported to the caller (R177). -/
def encodeTemperature (p : HostParams) (t : TempInput) (s : State) : Except HostError (List Char) := do
  let f5 ← buildFrame p t
  let (z, _) ← pipeline p.level f5 s
  return base64 z

end Sys2Proof.Machine
end

