-- ==== Sys2Proof/Safety.lean ====
section
/-!
DEFINITION. What claims rest on: the invariant of the machine's state, the host moves that are accesses to ENC
(20_memory R50, R65), and the end state of a run (70_reset R219).
-/
namespace Sys2Proof.Machine

/-- What holds in every state a run reaches. -/
structure State.Inv (s : State) : Prop where
  /-- The capacities meet R4. -/
  admissible : s.cfg.Admissible
  /-- `STATUS.BUSY` is never observed as 1 (R26, R216). -/
  notBusy : statusBusy s.status = false
  /-- `STATUS[7:5]` reads as 0 (R26). -/
  reserved : s.status.extractLsb' 5 3 = 0#3
  /-- `ERR` codes 5 to 7 are never produced (R186). -/
  errLegal : (statusErr s.status).toNat ≤ 4
  /-- Before the first operation `STATUS` is 0 and there is no result (R26, R33). -/
  beforeFirst : statusDone s.status = false → s.status = 0#8 ∧ s.olen = 0
  /-- An error leaves no result (R192). -/
  errorEmpty : statusErr s.status ≠ 0#3 → s.olen = 0
  /-- `ILEN` has `LENW` bits (R23). -/
  ilenFits : s.ilen < 2 ^ s.cfg.lenW
  /-- A result fits the output buffer (R189). -/
  olenFits : s.olen ≤ s.cfg.obufCap
  /-- `IBUF` is in canonical form. -/
  ibufWf : s.ibuf.wf
  /-- `IBUF` has no byte at an index of `IBUF_CAP` or above (R65). -/
  ibufIn : ∀ c ∈ s.ibuf, c.1 < s.cfg.ibufCap
  /-- Exactly the bytes of `OBUF[0..OLEN)` hold a value (R22), in canonical form. -/
  obufExact : s.obuf.map Prod.fst = List.range s.olen
  /-- The decoder's input index stays inside its stream (R125). -/
  decIn : s.dec.i ≤ s.dec.stream.length

/-- The host moves that are accesses R50 and R65 give the host, and the uses of reset and of the decoder. -/
def HostMove.legal (c : Config) : HostMove → Bool
  | .writeReg r v =>
    match r with
    | 0 => decide (v < 256)
    | 1 => decide (v < 256)
    | 2 => decide (v < 2 ^ c.lenW)
    | 3 => decide (v < 2 ^ c.lenW)
    | _ => false
  | .readReg r => decide (r < 4)
  | .writeIbuf i _ => decide (i < c.ibufCap)
  | .readIbuf _ => false
  | .writeObuf i _ => decide (i < c.obufCap)
  | .readObuf i => decide (i < c.obufCap)
  | .reset => true
  | .loadStream _ => true
  | .replayBlock => true

/-- The move is a write of `CMD`, the only way an operation starts (R25). -/
def HostMove.isCommand : HostMove → Bool
  | .writeReg r _ => r == 0
  | .readReg _ => false
  | .writeIbuf _ _ => false
  | .readIbuf _ => false
  | .writeObuf _ _ => false
  | .readObuf _ => false
  | .reset => false
  | .loadStream _ => false
  | .replayBlock => false

/-- The end state of a run (R219): the registers, `IBUF[0..ILEN)` and `OBUF[0..OLEN)`. Each buffer part has one
entry for each index of its range, `none` where the byte holds no value (R21, R22). DESIGN CHOICE (log entry 26):
where `ILEN > IBUF_CAP` the part still has `ILEN` entries, those at `IBUF_CAP` and above `none`, since `IBUF` has no
such bytes (R65); the spec does not say what `IBUF[0..ILEN)` is there. -/
structure EndState where
  cmd : Byte
  status : Byte
  ilen : Nat
  olen : Nat
  payload : List (Option Byte)
  result : List (Option Byte)
  deriving DecidableEq, Repr

/-- The end state a machine state stands for (R219; log entry 26 where `ILEN > IBUF_CAP`). -/
def State.endState (s : State) : EndState :=
  ⟨s.cmd, s.status, s.ilen, s.olen, s.ibuf.cells s.ilen, s.obuf.cells s.olen⟩

end Sys2Proof.Machine
end

