-- ==== Sys2Proof/Certificates/Slice0/Obligations.lean ====
section
/-!
DEFINITION. The statements for the provers. Each docstring names the rules of spec/ it formalises; a clause that
rests on a choice of the model names its log entry.
-/

open Sys2Proof Sys2Proof.Machine

/-! ### Reset and the invariant -/

/-- R33: the registers are 0, no buffer byte holds a value, the timing table holds its constants. -/
def Obligations.ResetLeavesRegistersZeroAndBuffersEmpty : Prop :=
  (∀ c : Config,
    (State.resetOf c).cmd = 0x00#8 ∧ (State.resetOf c).status = 0x00#8 ∧
    (State.resetOf c).ilen = 0 ∧ (State.resetOf c).olen = 0 ∧
    (∀ a, (State.resetOf c).ibuf.read a = none) ∧ (∀ a, (State.resetOf c).obuf.read a = none)) ∧
  timingTable =
    ⟨[4497#16, 4497#16], [588#16, 1657#16], [588#16, 588#16], [588#16, 5601#16]⟩

/-- R210, R211: a reset from any state; that the decoder and the host's side stay is log entry 12. -/
def Obligations.ResetMoveRestoresResetState : Prop :=
  ∀ (s : State) (rest : List HostMove), s.script = .reset :: rest →
    step s = .next { State.resetOf s.cfg with dec := s.dec, script := rest, seen := s.seen }

/-- The invariant holds after reset, whatever admissible parameters the machine has. -/
def Obligations.InvariantHoldsAtReset : Prop :=
  ∀ c : Config, c.Admissible → (State.resetOf c).Inv

/-- Every step keeps the invariant: legal `STATUS` fields, canonical buffers inside their capacities, exactly
`OBUF[0..OLEN)` holding values, the decoder inside its stream. -/
def Obligations.InvariantKeptByEveryStep : Prop :=
  ∀ s t : State, s.Inv → step s = .next t → t.Inv

/-- R156, R190: no step brings the error code `INV`. -/
def Obligations.NoStepRaisesInv : Prop :=
  ∀ s t : State, statusErr s.status ≠ 4#3 → step s = .next t → statusErr t.status ≠ 4#3

/-! ### Commands and host moves -/

/-- R72: the seven operation codes. -/
def Obligations.CommandCodesSelectTheirOperations : Prop :=
  decodeCommand 0x01#8 = .ok .chk ∧ decodeCommand 0x02#8 = .ok .neg ∧
  decodeCommand 0x03#8 = .ok .wave ∧ decodeCommand 0x04#8 = .ok .comp0 ∧
  decodeCommand 0x05#8 = .ok .comp1 ∧ decodeCommand 0x06#8 = .ok .comp2 ∧
  decodeCommand 0x07#8 = .ok .comp3

/-- R73, R187: a reserved command word is kept in `CMD` and ends at once with `ILLOP`, whatever the buffers and
`ILEN` hold. -/
def Obligations.ReservedCommandRaisesIllop : Prop :=
  ∀ (s : State) (c : Byte) (rest : List HostMove),
    c.toNat = 0 ∨ 8 ≤ c.toNat → s.script = .writeReg 0 c.toNat :: rest →
    step s = .next
      { s with cmd := c, status := 0x06#8, olen := 0, obuf := [], script := rest }

/-- A step runs the decoded command: `CMD` takes the value written (R25) and the whole operation follows in the
same step (R216); the move is used up. -/
def Obligations.StepRunsTheWrittenCommand : Prop :=
  ∀ (s : State) (v : Nat) (rest : List HostMove) (i : Instr),
    s.script = .writeReg 0 v :: rest → v < 256 → decodeCommand (BitVec.ofNat 8 v) = .ok i →
    step s = exec i { s with cmd := BitVec.ofNat 8 v, script := rest }

/-- A step runs the decoded block: when the decoder is moved and its stream holds a block at its index (R125). -/
def Obligations.StepRunsTheDecodedBlock : Prop :=
  ∀ (s : State) (rest : List HostMove) (i : Instr) (after : List Byte),
    s.script = .replayBlock :: rest → s.dec.i < s.dec.stream.length →
    decodeToken s.cfg.extPos (s.dec.stream.drop s.dec.i) = .ok (i, after) →
    step s = exec i { s with script := rest }

/-- R57: reads record a value and change nothing else, a `CMD` write starts an operation, a write of `ILEN` or of
an `IBUF` byte changes that alone, a write of `STATUS`, `OLEN` or an `OBUF` byte is ignored. -/
def Obligations.HostAccessesHaveTheirSideEffects : Prop :=
  ∀ (s : State) (rest : List HostMove),
    (∀ r v, s.script = .readReg r :: rest → s.readReg r = some v →
      step s = .next { s with script := rest, seen := s.seen ++ [v] }) ∧
    (∀ i b, s.script = .readObuf i :: rest → i < s.cfg.obufCap → s.obuf.read i = some b →
      step s = .next { s with script := rest, seen := s.seen ++ [b.toNat] }) ∧
    (∀ (c : Byte) i, s.script = .writeReg 0 c.toNat :: rest → decodeCommand c = .ok i →
      step s = exec i { s with cmd := c, script := rest }) ∧
    (∀ v, s.script = .writeReg 2 v :: rest → v < 2 ^ s.cfg.lenW →
      step s = .next { s with ilen := v, script := rest }) ∧
    (∀ i b, s.script = .writeIbuf i b :: rest → i < s.cfg.ibufCap →
      ∃ m : Memory, step s = .next { s with ibuf := m, script := rest } ∧
        m.read i = some b ∧ ∀ j, j ≠ i → m.read j = s.ibuf.read j) ∧
    (∀ v, s.script = .writeReg 1 v :: rest → v < 256 → step s = .next { s with script := rest }) ∧
    (∀ v, s.script = .writeReg 3 v :: rest → v < 2 ^ s.cfg.lenW →
      step s = .next { s with script := rest }) ∧
    (∀ i b, s.script = .writeObuf i b :: rest → i < s.cfg.obufCap →
      step s = .next { s with script := rest })

/-- R65, U12 and log entries 9 and 19: a step refuses exactly the moves that are no access to ENC. No operation
and no block of the decoder is ever refused. -/
def Obligations.OnlyForeignAccessesAreRefused : Prop :=
  ∀ (s : State) (m : HostMove) (rest : List HostMove), s.script = m :: rest →
    ((∃ r, step s = .refused r) ↔ m.legal s.cfg = false)

/-- R193, R215: `CMD`, `STATUS`, `OLEN` and `OBUF` stay until the next write of `CMD` or reset. -/
def Obligations.OutcomeLivesUntilNextCommandOrReset : Prop :=
  ∀ (s t : State) (m : HostMove) (rest : List HostMove),
    s.script = m :: rest → m.isCommand = false → m ≠ .reset → step s = .next t →
    t.cmd = s.cmd ∧ t.status = s.status ∧ t.olen = s.olen ∧ t.obuf = s.obuf

/-! ### What every operation does -/

/-- R188: every operation ends with error `ILEN` when `ILEN > IBUF_CAP`, whatever the buffer holds. -/
def Obligations.TooLongPayloadRaisesIlen : Prop :=
  ∀ (i : Instr) (s : State), i.isCommand = true → s.cfg.ibufCap < s.ilen →
    exec i s = .next { s with status := 0x0A#8, olen := 0, obuf := [] }

/-- U7, R21: an operation whose payload includes a byte without a value has no defined result. That this fault comes
before `OVF`, where the result would be too long whatever the byte holds, is the model's choice (log entry 25). -/
def Obligations.PayloadWithoutValueFaults : Prop :=
  ∀ (i : Instr) (s : State) (a : Nat), i.isCommand = true → s.ilen ≤ s.cfg.ibufCap →
    a < s.ilen → s.ibuf.read a = none → exec i s = .fault .noValue

/-- R35, and the frame of the seven operations: inputs, configuration, decoder and host side are unchanged, and
after the operation exactly the bytes of `OBUF[0..OLEN)` hold a value (R22). -/
def Obligations.OperationsKeepTheirInputs : Prop :=
  ∀ (i : Instr) (s t : State), i.isCommand = true → exec i s = .next t →
    t.ibuf = s.ibuf ∧ t.ilen = s.ilen ∧ t.cmd = s.cmd ∧ t.cfg = s.cfg ∧ t.dec = s.dec ∧
    t.script = s.script ∧ t.seen = s.seen ∧
    (∀ a, (t.obuf.read a).isSome = decide (a < t.olen))

/-- R26, R192: after an operation `STATUS` is `0x02 | (ERR << 2)`, and an error leaves no result. -/
def Obligations.StatusAfterEveryOperation : Prop :=
  ∀ (i : Instr) (s t : State), i.isCommand = true → exec i s = .next t →
    ∃ e : BitVec 3, e.toNat ≤ 4 ∧ t.status = 0x02#8 ||| (e.setWidth 8 <<< 2) ∧
      (e ≠ 0#3 → t.olen = 0 ∧ t.obuf = [])

/-- R34: an operation's result depends on the payload, `ILEN`, the command and the constants only; of the parameters
of R4 `BASE` is none of them (R58). -/
def Obligations.ResultDependsOnPayloadOnly : Prop :=
  ∀ (i : Instr) (s1 s2 t1 : State), i.isCommand = true →
    s1.cfg.ibufCap = s2.cfg.ibufCap → s1.cfg.obufCap = s2.cfg.obufCap →
    s1.cfg.extPos = s2.cfg.extPos → s1.ilen = s2.ilen →
    (∀ a, a < s1.ilen → s1.ibuf.read a = s2.ibuf.read a) → exec i s1 = .next t1 →
    ∃ t2, exec i s2 = .next t2 ∧ t2.obuf = t1.obuf ∧ t2.olen = t1.olen ∧ t2.status = t1.status

/-! ### Checksum and negator -/

/-- R90: bit `i` of `Rev8(b)` is bit `7 - i` of `b`; the nibble form; `Rev8` is its own inverse. -/
def Obligations.Rev8ReversesBits : Prop :=
  (∀ b : Byte, ∀ i < 8, (rev8 b).getLsbD i = b.getLsbD (7 - i)) ∧
  (∀ b : Byte,
    let rev4 : Nat → Nat := fun k => [0, 8, 4, 12, 2, 10, 6, 14, 1, 9, 5, 13, 3, 11, 7, 15].getD k 0
    (rev8 b).toNat = rev4 (b.toNat % 16) * 16 + rev4 (b.toNat / 16)) ∧
  (∀ b : Byte, rev8 (rev8 b) = b)

/-- R91: `Chk(s) = Rev8((256 - sum) mod 256)`, `sum` the sum of the bit-reversed bytes modulo 256. -/
def Obligations.ChkIsReversedNegatedSum : Prop :=
  ∀ s : List Byte,
    chk s = rev8 (BitVec.ofNat 8 ((256 - (s.map fun b => (rev8 b).toNat).sum % 256) % 256))

/-- R92: `CHK` leaves the checksum byte alone in `OBUF`, or raises `ILEN`. -/
def Obligations.ChkDeliversTheChecksum : Prop :=
  ∀ s : State,
    (s.cfg.ibufCap < s.ilen →
      exec .chk s = .next { s with obuf := [], olen := 0, status := 0x0A#8 }) ∧
    (∀ p, s.ilen ≤ s.cfg.ibufCap → s.payload = some p →
      exec .chk s = .next { s with obuf := [(0, chk p)], olen := 1, status := 0x02#8 })

/-- R93: every sequence followed by its checksum has checksum 0. -/
def Obligations.ChecksumSelfValidates : Prop :=
  ∀ s : List Byte, chk (s ++ [chk s]) = 0x00#8

/-- R94: the order of the bytes does not matter. -/
def Obligations.ChecksumIgnoresOrder : Prop :=
  ∀ s t : List Byte, s.Perm t → chk s = chk t

/-- R100: `Neg(s)[i] = (~s[i]) & 0xFF = s[i] ^ 0xFF = 255 - s[i]`, of the same length. -/
def Obligations.NegComplementsEveryByte : Prop :=
  ∀ s : List Byte, (neg s).length = s.length ∧
    ∀ (i : Nat) (b : Byte), s[i]? = some b →
      (neg s)[i]? = some (b ^^^ 0xFF#8) ∧ b ^^^ 0xFF#8 = ~~~b ∧ (b ^^^ 0xFF#8).toNat = 255 - b.toNat

/-- R101: `NEG` leaves the complement of the payload in `OBUF`, or raises `ILEN` or `OVF`. -/
def Obligations.NegDeliversTheComplement : Prop :=
  ∀ s : State,
    (s.cfg.ibufCap < s.ilen →
      exec .neg s = .next { s with obuf := [], olen := 0, status := 0x0A#8 }) ∧
    (∀ p, s.ilen ≤ s.cfg.ibufCap → s.payload = some p →
      (s.cfg.obufCap < s.ilen →
        exec .neg s = .next { s with obuf := [], olen := 0, status := 0x0E#8 }) ∧
      (s.ilen ≤ s.cfg.obufCap →
        exec .neg s = .next
          { s with
            obuf := Memory.ofBytes 0 (p.map fun b => b ^^^ 0xFF#8), olen := s.ilen,
            status := 0x02#8 }))

/-- R102: `Neg` is its own inverse and inverts the bit string; `Rev8` commutes with the complement. -/
def Obligations.NegInvertsTheBitString : Prop :=
  (∀ s : List Byte, neg (neg s) = s) ∧
  (∀ s t : List Byte, neg (s ++ t) = neg s ++ neg t) ∧
  (∀ s : List Byte, bits (neg s) = (bits s).map fun b => !b) ∧
  (∀ b : Byte, rev8 (b ^^^ 0xFF#8) = rev8 b ^^^ 0xFF#8)

/-! ### Waveform -/

/-- R105: `Bits(s)[8 i + j] = s[i][7 - j]`. -/
def Obligations.BitsAreMostSignificantFirst : Prop :=
  ∀ s : List Byte, (bits s).length = 8 * s.length ∧
    ∀ (i j : Nat) (b : Byte), s[i]? = some b → j ≤ 7 →
      (bits s)[8 * i + j]? = some (b.getLsbD (7 - j))

/-- R107: the header once, a list for each bit, the gap once; and the length, for lists of any length. -/
def Obligations.WaveIsHeaderBitsGap : Prop :=
  ∀ (t : Timing) (bs : List Bool),
    wave t bs = t.hdr ++ (bs.map fun b => if b then t.one else t.zero).flatten ++ t.gap ∧
    (wave t bs).length =
      t.hdr.length + t.gap.length + bs.count false * t.zero.length + bs.count true * t.one.length

/-- R108: each duration as a little-endian 16-bit value, in order. -/
def Obligations.SerialisationIsLittleEndian : Prop :=
  ∀ t : List Pulse, (ser16 t).length = 2 * t.length ∧
    ∀ (i : Nat) (w : Pulse), t[i]? = some w →
      (ser16 t)[2 * i]? = some (BitVec.ofNat 8 (w.toNat % 256)) ∧
      (ser16 t)[2 * i + 1]? = some (BitVec.ofNat 8 (w.toNat / 256))

/-- R109: `WAVE` leaves the `32 * ILEN + 8` serialised bytes in `OBUF`, or raises `ILEN` or `OVF`. -/
def Obligations.WaveDeliversThePulseTrain : Prop :=
  ∀ s : State,
    (s.cfg.ibufCap < s.ilen →
      exec .wave s = .next { s with obuf := [], olen := 0, status := 0x0A#8 }) ∧
    (∀ p, s.ilen ≤ s.cfg.ibufCap → s.payload = some p →
      (s.cfg.obufCap < 32 * s.ilen + 8 →
        exec .wave s = .next { s with obuf := [], olen := 0, status := 0x0E#8 }) ∧
      (32 * s.ilen + 8 ≤ s.cfg.obufCap →
        exec .wave s = .next
          { s with
            obuf := Memory.ofBytes 0 (ser16 (wave timingTable (bits p))), olen := 32 * s.ilen + 8,
            status := 0x02#8 }))

/-- R112: every mark of a data bit is 588 and its space carries the bit: 1657 for 1, 588 for 0. -/
def Obligations.SpaceCarriesTheBit : Prop :=
  ∀ (bs : List Bool) (j : Nat) (b : Bool), bs[j]? = some b →
    (wave timingTable bs)[2 + 2 * j]? = some 588#16 ∧
    (wave timingTable bs)[2 + 2 * j + 1]? = some (if b then 1657#16 else 588#16)

/-- R110: the two-frame train of a 6-byte frame has 200 durations and 400 bytes, and serialises half by half. -/
def Obligations.TrainOfSixByteFrame : Prop :=
  ∀ f : List Byte, f.length = 6 →
    train timingTable f = wave timingTable (bits f) ++ wave timingTable (bits (neg f)) ∧
    (train timingTable f).length = 200 ∧ (ser16 (train timingTable f)).length = 400 ∧
    ser16 (train timingTable f) =
      ser16 (wave timingTable (bits f)) ++ ser16 (wave timingTable (bits (neg f)))

/-! ### Encodings and the formatter -/

/-- Decoding undoes encoding, for every row, every operand and both values of `EXT_BYTE_POS` (R71 to R78). -/
def Obligations.DecodeUndoesEncode : Prop :=
  ∀ (pos : ExtBytePos) (i : Instr), i.WellFormed →
    (i.isCommand = true → ∃ c, encode pos i = [c] ∧ decodeCommand c = .ok i) ∧
    (i.isCommand = false → ∀ rest, decodeToken pos (encode pos i ++ rest) = .ok (i, rest))

/-- Encoding undoes decoding: a block read from a stream is well formed, and its bytes are those read. -/
def Obligations.EncodeUndoesDecode : Prop :=
  ∀ (pos : ExtBytePos) (bytes rest : List Byte) (i : Instr),
    decodeToken pos bytes = .ok (i, rest) →
    i.WellFormed ∧ i.isCommand = false ∧ encode pos i ++ rest = bytes

/-- R74, R79, R81 (a): the first byte alone gives the block's size, and only a stream that ends inside the block
is rejected. -/
def Obligations.FirstByteGivesBlockSize : Prop :=
  ∀ (pos : ExtBytePos) (h : Byte) (rest : List Byte),
    let size := if h.toNat / 32 = 0 then 2 + h.toNat % 32 else if h.toNat / 32 = 7 then 3 else 2
    (rest.length + 1 < size → decodeToken pos (h :: rest) = .error .truncated) ∧
    (size ≤ rest.length + 1 →
      ∃ i, decodeToken pos (h :: rest) = .ok (i, (h :: rest).drop size) ∧ i.size = size)

/-- Words written out from the layouts of R75 to R77 and the vectors V10 decode to the rows they stand for. -/
def Obligations.WrittenOutWordsDecode : Prop :=
  decodeToken .trailing [0x00#8, 0x41#8] = .ok (.lit [0x41#8], []) ∧
  decodeToken .trailing [0x3F#8, 0xFF#8] = .ok (.distS1 8191#13, []) ∧
  decodeToken .trailing [0x60#8, 0x04#8] = .ok (.distS3 4#13, []) ∧
  decodeToken .trailing [0xE1#8, 0x2B#8, 0x01#8] = .ok (.distL 299#13 1#8, []) ∧
  decodeToken .middle [0xE1#8, 0x01#8, 0x2B#8] = .ok (.distL 299#13 1#8, []) ∧
  decodeToken .trailing [0xE0#8, 0x00#8] = .error .truncated

/-- R120, R122: the bytes FMT emits for every request, in plain arithmetic on `d = dist - 1`, with `EXT_BYTE_POS`
at either value, and `INV` exactly for a request out of range (R82). -/
def Obligations.FormatterLaysOutBlocks : Prop :=
  ∀ (pos : ExtBytePos),
    (∀ bytes : List Byte,
      (bytes.length < 1 ∨ 32 < bytes.length → emit pos (.lit bytes) = .error .inv) ∧
      (1 ≤ bytes.length → bytes.length ≤ 32 →
        emit pos (.lit bytes) = .ok (BitVec.ofNat 8 (bytes.length - 1) :: bytes))) ∧
    (∀ len dist : Nat,
      (len < 3 ∨ 264 < len ∨ dist < 1 ∨ 8192 < dist → emit pos (.dist len dist) = .error .inv) ∧
      (3 ≤ len → len ≤ 8 → 1 ≤ dist → dist ≤ 8192 →
        emit pos (.dist len dist) =
          .ok [BitVec.ofNat 8 (32 * (len - 2) + (dist - 1) / 256), BitVec.ofNat 8 ((dist - 1) % 256)]) ∧
      (9 ≤ len → len ≤ 264 → 1 ≤ dist → dist ≤ 8192 →
        emit pos (.dist len dist) = .ok
          (match pos with
          | .trailing =>
            [BitVec.ofNat 8 (224 + (dist - 1) / 256), BitVec.ofNat 8 ((dist - 1) % 256),
              BitVec.ofNat 8 (len - 9)]
          | .middle =>
            [BitVec.ofNat 8 (224 + (dist - 1) / 256), BitVec.ofNat 8 (len - 9),
              BitVec.ofNat 8 ((dist - 1) % 256)])))

/-- R120 and R122 against R75 to R78: what FMT emits for a token is the encoding of the token's row. -/
def Obligations.FormatterEmitsTheRowEncoding : Prop :=
  ∀ (pos : ExtBytePos) (i : Instr) (t : Token), i.WellFormed → tokenOf i = some t →
    emit pos t = .ok (encode pos i)

/-- R80: every pair in range, and every literal in range, has exactly one row and operand. -/
def Obligations.EveryTokenHasExactlyOneRow : Prop :=
  ∀ t : Token, t.inRange = true → ∃! i : Instr, i.WellFormed ∧ tokenOf i = some t

/-- R121: a literal run is cut into 32-byte pieces, the remainder last; `EmitLits` never raises `INV`, is the
concatenation of `EmitLit` of the pieces in order, and costs one byte a piece. -/
def Obligations.LiteralRunsAreCutEvery32 : Prop :=
  ∀ bytes : List Byte,
    (chunks bytes).flatten = bytes ∧ (chunks bytes).length = Config.ceil32 bytes.length ∧
    (∀ (q : Nat) (c : List Byte), (chunks bytes)[q]? = some c →
      c = (bytes.drop (32 * q)).take 32) ∧
    ∃ blocks : List (List Byte),
      (chunks bytes).map emitLit = blocks.map .ok ∧ emitLits bytes = .ok blocks.flatten ∧
      blocks.flatten.length = bytes.length + Config.ceil32 bytes.length

/-- R124: the length of the encoded stream is the sum of the token costs. -/
def Obligations.EncodedLengthIsTokenCost : Prop :=
  ∀ (pos : ExtBytePos) (ts : List Token), (∀ t ∈ ts, t.inRange = true) →
    ∃ out, encodeTokens pos ts = .ok out ∧ out.length = (ts.map Token.cost).sum

/-! ### The reference decoder -/

/-- R126: the LIT step appends the data bytes and moves past the block; nothing else changes. -/
def Obligations.LitAppendsItsBytes : Prop :=
  ∀ (s : State) (data : List Byte), 1 ≤ data.length → data.length ≤ 32 →
    exec (.lit data) s = .next
      { s with
        dec := ⟨s.dec.stream, s.dec.i + 1 + data.length, s.dec.out ++ data⟩ }

/-- R127, R62: each distance row (named with its match length and block size) whose distance lies within the
output copies byte by byte, each new byte the one `distance` places before it, and moves past its block; nothing
else changes. -/
def Obligations.DistCopiesFromItsDistance : Prop :=
  ∀ (s : State) (d : BitVec 13) (ext : BitVec 8),
    ∀ q ∈ [(Instr.distS1 d, 3, 2), (.distS2 d, 4, 2), (.distS3 d, 5, 2), (.distS4 d, 6, 2),
      (.distS5 d, 7, 2), (.distS6 d, 8, 2), (.distL d ext, ext.toNat + 9, 3)],
    d.toNat + 1 ≤ s.dec.out.length →
    ∃ out : List Byte,
      exec q.1 s = .next { s with dec := ⟨s.dec.stream, s.dec.i + q.2.2, out⟩ } ∧
      out.length = s.dec.out.length + q.2.1 ∧ out.take s.dec.out.length = s.dec.out ∧
      ∀ k, k < q.2.1 →
        out[s.dec.out.length + k]? = out[s.dec.out.length + k - (d.toNat + 1)]?

/-- R128: a distance beyond the output faults with `DIST`, a stream that ends inside a block with `TRUNC`. -/
def Obligations.DecoderFaultsOnIllegalStreams : Prop :=
  (∀ (s : State) (d : BitVec 13) (ext : BitVec 8),
    ∀ i ∈ [Instr.distS1 d, .distS2 d, .distS3 d, .distS4 d, .distS5 d, .distS6 d, .distL d ext],
    s.dec.out.length < d.toNat + 1 → exec i s = .fault .decDist) ∧
  (∀ (s : State) (rest : List HostMove) (h : Byte) (tail : List Byte),
    s.script = .replayBlock :: rest → s.dec.stream.drop s.dec.i = h :: tail →
    tail.length + 1 <
      (if h.toNat / 32 = 0 then 2 + h.toNat % 32 else if h.toNat / 32 = 7 then 3 else 2) →
    step s = .fault .decTrunc)

/-- The frame of the token rows: a block changes the decoder's index and output only, and only appends. -/
def Obligations.TokensChangeOnlyTheDecoder : Prop :=
  ∀ (i : Instr) (s t : State), i.isCommand = false → exec i s = .next t →
    t = { s with dec := t.dec } ∧ t.dec.stream = s.dec.stream ∧ t.dec.i = s.dec.i + i.size ∧
    s.dec.out <+: t.dec.out

/-- R129: the encoding of a token sequence that is valid and in range decodes to what the tokens replay to. -/
def Obligations.DecodeOfEncodeIsReplay : Prop :=
  ∀ (pos : ExtBytePos) (ts : List Token) (out : List Byte),
    (∀ t ∈ ts, t.inRange = true) → replay ts = some out →
    ∃ stream, encodeTokens pos ts = .ok stream ∧ decodeStream pos stream = .ok out

/-- The machine's decoder steps compute `Decode` (R125): loading a stream and moving the decoder once for each
byte leaves `Decode(s)` as its output, or stops with the fault `Decode` has. A block has two bytes or more, so the
last moves find the stream used up; that such a move changes nothing is the model's reading (log entry 13). -/
def Obligations.DecoderStepsComputeDecode : Prop :=
  ∀ (s : State) (bytes : List Byte),
    let run := s.drive (.loadStream bytes :: List.replicate bytes.length .replayBlock)
    (∀ out, decodeStream s.cfg.extPos bytes = .ok out →
      run = .next { s with dec := ⟨bytes, bytes.length, out⟩ }) ∧
    (decodeStream s.cfg.extPos bytes = .error .trunc → run = .fault .decTrunc) ∧
    (decodeStream s.cfg.extPos bytes = .error .dist → run = .fault .decDist)

/-! ### The compressor -/

/-- R141: the match length is the largest `k` up to `min(264, n - pos)` for which the first `k` bytes agree. -/
def Obligations.MatchLenIsTheLargestAgreement : Prop :=
  ∀ (p : List Byte) (pos D : Nat), pos < p.length → 1 ≤ D → D ≤ pos →
    let limit := min 264 (p.length - pos)
    matchLen p pos D ≤ limit ∧
    (∀ j, j < matchLen p pos D → p[pos + j]? = p[pos - D + j]?) ∧
    (∀ k, k ≤ limit → (∀ j, j < k → p[pos + j]? = p[pos - D + j]?) → k ≤ matchLen p pos D)

/-- R143: the pair of the smallest candidate whose match length reaches 3, or none. -/
def Obligations.FirstMatchIsTheNearestUsable : Prop :=
  ∀ (p : List Byte) (pos : Nat),
    (∀ m, firstMatch p pos = some m ↔
      (1 ≤ m.dist ∧ m.dist ≤ min pos 8192 ∧ m.len = matchLen p pos m.dist ∧ 3 ≤ m.len ∧
        ∀ D, 1 ≤ D → D < m.dist → matchLen p pos D < 3)) ∧
    (firstMatch p pos = none ↔ ∀ D, 1 ≤ D → D ≤ min pos 8192 → matchLen p pos D < 3)

/-- R144: the pair of the largest match length over the candidates, at the smallest distance that attains it, none
without candidates; and level 1 finds a match exactly where level 2 finds one of length 3 or more. -/
def Obligations.BestMatchIsLongestThenNearest : Prop :=
  ∀ (p : List Byte) (pos : Nat),
    (∀ m, bestMatch p pos = some m ↔
      (1 ≤ m.dist ∧ m.dist ≤ min pos 8192 ∧ m.len = matchLen p pos m.dist ∧
        (∀ D, 1 ≤ D → D ≤ min pos 8192 → matchLen p pos D ≤ m.len) ∧
        ∀ D, 1 ≤ D → D < m.dist → matchLen p pos D < m.len)) ∧
    (bestMatch p pos = none ↔ pos = 0) ∧
    (firstMatch p pos ≠ none ↔ ∃ m, bestMatch p pos = some m ∧ 3 ≤ m.len)

/-- R140: `COMP.k` delivers the encoding of `Tokens_k` of the payload, or raises `ILEN` or `OVF`; `INV` never
happens (R156), and `OVF` does not when `OBUF_CAP` meets the bound of R4. -/
def Obligations.CompDeliversTheEncodedTokens : Prop :=
  ∀ (s : State) (k : Fin 4),
    (s.cfg.ibufCap < s.ilen →
      exec (compInstr k) s = .next { s with obuf := [], olen := 0, status := 0x0A#8 }) ∧
    (∀ p, s.ilen ≤ s.cfg.ibufCap → s.payload = some p →
      ∃ stream, encodeTokens s.cfg.extPos (tokens k p) = .ok stream ∧
        (s.cfg.Admissible → stream.length ≤ s.cfg.obufCap) ∧
        (s.cfg.obufCap < stream.length →
          exec (compInstr k) s = .next { s with obuf := [], olen := 0, status := 0x0E#8 }) ∧
        (stream.length ≤ s.cfg.obufCap →
          exec (compInstr k) s = .next
            { s with
              obuf := Memory.ofBytes 0 stream, olen := stream.length, status := 0x02#8 }))

/-- R154: at every level the tokens are in range, replay to the payload, and their encoding decodes to it. -/
def Obligations.EveryLevelRoundTrips : Prop :=
  ∀ (pos : ExtBytePos) (k : Fin 4) (p : List Byte),
    (∀ t ∈ tokens k p, t.inRange = true) ∧ replay (tokens k p) = some p ∧
    ∃ stream, encodeTokens pos (tokens k p) = .ok stream ∧ decodeStream pos stream = .ok p

/-- R154 on the machine: with capacities as R4 bounds them, after `COMP.k` on a loaded payload the bytes of
`OBUF[0..OLEN)` decode to the payload; in particular no error occurs. -/
def Obligations.CompResultDecodesToThePayload : Prop :=
  ∀ (s : State) (k : Fin 4) (p : List Byte), s.cfg.Admissible → s.ilen ≤ s.cfg.ibufCap →
    s.payload = some p →
    ∃ t stream, exec (compInstr k) s = .next t ∧ t.status = 0x02#8 ∧ t.result = some stream ∧
      decodeStream s.cfg.extPos stream = .ok p

/-- R155: no level makes the payload longer than level 0 does, `n + ceil(n / 32)`, which level 0 attains. -/
def Obligations.NoLevelExceedsLevelZero : Prop :=
  ∀ (k : Fin 4) (p : List Byte),
    ((tokens k p).map Token.cost).sum ≤ p.length + Config.ceil32 p.length ∧
    ((tokens 0 p).map Token.cost).sum = p.length + Config.ceil32 p.length

/-- R155: level 3 has the least size of any well-formed in-range token sequence that replays to the payload. -/
def Obligations.LevelThreeIsOptimal : Prop :=
  ∀ (p : List Byte) (ts : List Token), (∀ t ∈ ts, t.inRange = true) → replay ts = some p →
    ((tokens 3 p).map Token.cost).sum ≤ (ts.map Token.cost).sum

/-- R153: the size of the level-3 stream is the final cost of node `n`. -/
def Obligations.LevelThreeSizeIsFinalCost : Prop :=
  ∀ p : List Byte, ∃ e : Node, (costTable p)[p.length]? = some (some e) ∧
    ((tokens 3 p).map Token.cost).sum = e.cost

/-- R155, C3: `S_2 <= S_1` is not a law. -/
def Obligations.LevelTwoCanExceedLevelOne : Prop :=
  ∃ p : List Byte,
    ((tokens 1 p).map Token.cost).sum < ((tokens 2 p).map Token.cost).sum

/-- R158: a run of 4 to 265 equal bytes is one literal and one match at distance 1, at levels 1 and 2. -/
def Obligations.EqualRunIsLiteralAndMatch : Prop :=
  ∀ (x : Byte) (r : Nat), 4 ≤ r → r ≤ 265 →
    tokens 1 (List.replicate r x) = [.lit [x], .dist (r - 1) 1] ∧
    tokens 2 (List.replicate r x) = [.lit [x], .dist (r - 1) 1]

/-! ### The host's pipeline -/

/-- R175: from any state with admissible capacities the host script ends without error, with the encoding of the
tokens of the serialised two-frame train. -/
def Obligations.PipelineCompressesTheTrain : Prop :=
  ∀ (s : State) (k : Fin 4) (f5 : List Byte), s.cfg.Admissible → f5.length = 5 →
    ∃ z t, pipeline k f5 s = .ok (z, t) ∧
      encodeTokens s.cfg.extPos (tokens k (ser16 (train timingTable (f5 ++ [chk f5])))) = .ok z

/-- R172: the rounded temperature is a nearest integer, whatever the rounding rule and the free value of log
entry 14. -/
def Obligations.RoundingIsToANearestInteger : Prop :=
  ∀ (m : RoundMode) (num : Int) (den : Nat), 0 < den →
    2 * |roundNearest m num den * den - num| ≤ den

/-- R171, R174: a temperature is rejected exactly outside `[-30, 70)`, and an integer temperature from -1 to 69
gives the frame with value byte one above it, under every host parameter. -/
def Obligations.FrameBuilderRangeAndValue : Prop :=
  ∀ p : HostParams, p.lowerInclusive = true →
    (∀ (num : Int) (den : Nat), 0 < den →
      (buildFrame p (.fraction num den) = .error .inputRange ↔
        ¬ (-30 * (den : Int) ≤ num ∧ num < 70 * (den : Int)))) ∧
    (∀ n : Nat, n ≤ 70 →
      buildFrame p (.fraction ((n : Int) - 1) 1) =
        .ok [0xA4#8, 0x82#8, 0x48#8, 0x7F#8, BitVec.ofNat 8 n])
end

