-- ==== Sys2Proof/Laws/Compressor.lean ====
section
/-!
SUPPORT. The parts of the match search and of the level-3 table: run lengths, candidates, usable matches, edges,
and that relaxing keeps the table's size.
-/
namespace Sys2Proof.Machine

/-- A run is no longer than its limit. -/
theorem runLength_le (limit : Nat) (xs ys : List Byte) : runLength limit xs ys ≤ limit := by
  induction limit generalizing xs ys with
  | zero => simp [runLength]
  | succ n ih =>
    cases xs with
    | nil => simp [runLength]
    | cons x xs =>
      cases ys with
      | nil => simp [runLength]
      | cons y ys =>
        simp only [runLength]
        split
        · exact Nat.succ_le_succ (ih xs ys)
        · omega

/-- Inside a run the two sequences agree. -/
theorem runLength_agree (limit : Nat) (xs ys : List Byte) {j : Nat}
    (h : j < runLength limit xs ys) : xs[j]? = ys[j]? := by
  induction limit generalizing xs ys j with
  | zero => simp [runLength] at h
  | succ n ih =>
    cases xs with
    | nil => simp [runLength] at h
    | cons x xs =>
      cases ys with
      | nil => simp [runLength] at h
      | cons y ys =>
        simp only [runLength] at h
        split at h
        · rename_i hxy
          cases j with
          | zero => simp [hxy]
          | succ j => simpa using ih xs ys (by omega)
        · omega

/-- A run goes on as long as the two sequences agree on bytes that are there. -/
theorem le_runLength {limit k : Nat} {xs ys : List Byte} (hk : k ≤ limit) (hx : k ≤ xs.length)
    (hy : k ≤ ys.length) (h : ∀ j, j < k → xs[j]? = ys[j]?) : k ≤ runLength limit xs ys := by
  induction limit generalizing xs ys k with
  | zero => omega
  | succ n ih =>
    cases k with
    | zero => omega
    | succ k =>
      cases xs with
      | nil => simp at hx
      | cons x xs =>
        cases ys with
        | nil => simp at hy
        | cons y ys =>
          have hxy : x = y := by simpa using h 0 (by omega)
          simp only [runLength, if_pos hxy]
          exact Nat.succ_le_succ (ih (by omega) (by simpa using hx) (by simpa using hy)
            fun j hj => by simpa using h (j + 1) (by omega))

/-- The candidates (R142). -/
theorem mem_candidates (pos D : Nat) :
    D ∈ candidates pos ↔ 1 ≤ D ∧ D ≤ min pos Config.window := by
  simp only [candidates, List.mem_range'_1]
  omega

/-- A greedy level takes a match exactly when its length reaches 3 (R146). -/
theorem usable_eq_some_iff (m : Option Match) (b : Match) :
    usable m = some b ↔ m = some b ∧ Config.minMatch ≤ b.len := by
  cases m with
  | none => simp [usable]
  | some a =>
    simp only [usable, Option.bind_some, Option.some.injEq]
    split
    · rename_i h
      constructor
      · intro hab
        cases hab
        exact ⟨rfl, h⟩
      · rintro ⟨rfl, _⟩
        rfl
    · rename_i h
      simp only [reduceCtorEq, false_iff, not_and]
      rintro rfl
      exact h

/-- The match edges of a node (R150). -/
theorem mem_matchEdges (p : List Byte) (i : Nat) (e : Edge) :
    e ∈ matchEdges p i ↔ ∃ m, usable (bestMatch p i) = some m ∧ 3 ≤ e.len ∧ e.len ≤ m.len ∧
      e.dist = m.dist ∧ e.cost = if e.len < 9 then 2 else 3 := by
  unfold matchEdges
  cases usable (bestMatch p i) with
  | none => simp
  | some m =>
    simp only [List.mem_map, List.mem_range'_1, Option.some.injEq]
    constructor
    · rintro ⟨l, hl, rfl⟩
      exact ⟨m, rfl, by simp only; omega, by simp only; omega, rfl, rfl⟩
    · rintro ⟨_, rfl, h3, hl, hd, hc⟩
      refine ⟨e.len, by omega, ?_⟩
      rw [← hd, ← hc]

/-- The literal edges of a node (R150). -/
theorem mem_literalEdges (p : List Byte) (i : Nat) (e : Edge) :
    e ∈ literalEdges p i ↔
      1 ≤ e.len ∧ e.len ≤ min Config.maxLit (p.length - i) ∧ e.dist = 0 ∧ e.cost = 1 + e.len := by
  simp only [literalEdges, List.mem_map, List.mem_range'_1]
  constructor
  · rintro ⟨l, hl, rfl⟩
    exact ⟨by simp only; omega, by simp only; omega, rfl, rfl⟩
  · rintro ⟨h1, hl, hd, hc⟩
    refine ⟨e.len, by omega, ?_⟩
    rw [← hd, ← hc]

@[simp] theorem relax_length (i : Nat) (t : CostTable) (e : Edge) : (relax i t e).length = t.length := by
  unfold relax
  split
  · rfl
  · split
    · simp
    · split <;> simp

@[simp] theorem relaxNode_length (p : List Byte) (t : CostTable) (i : Nat) :
    (relaxNode p t i).length = t.length := by
  unfold relaxNode
  induction matchEdges p i ++ literalEdges p i generalizing t with
  | nil => rfl
  | cons e es ih => simp [ih]

/-- The table has an entry for each node `0 .. n` (R30). -/
theorem costTable_length (p : List Byte) : (costTable p).length = p.length + 1 := by
  unfold costTable
  suffices ∀ (is : List Nat) (t : CostTable),
      (is.foldl (relaxNode p) t).length = t.length by simp [this, initTable]
  intro is
  induction is with
  | nil => simp
  | cons i is ih => simp [ih]

end Sys2Proof.Machine
end

