-- ==== Sys2Proof/Laws/Memory.lean ====
section
/-!
SUPPORT. The laws of a byte buffer: a read after a write, the canonical form kept by every operation, ranges read
back, and the buffer that holds exactly a byte sequence.
-/
namespace Sys2Proof.Machine

@[simp] theorem Memory.read_nil (a : Nat) : Memory.read [] a = none := rfl

theorem Memory.read_cons (k : Nat) (c : Byte) (m : Memory) (a : Nat) :
    Memory.read ((k, c) :: m) a = if k = a then some c else m.read a := rfl

/-- A read of the index just written gives the byte written. -/
@[simp] theorem Memory.read_write_same (m : Memory) (a : Nat) (b : Byte) :
    (m.write a b).read a = some b := by
  induction m with
  | nil => simp [Memory.write, Memory.read_cons]
  | cons c m ih =>
    obtain ⟨k, c⟩ := c
    unfold Memory.write
    split
    · simp [Memory.read_cons]
    · split
      · simp [Memory.read_cons]
      · rw [Memory.read_cons, if_neg (by omega), ih]

/-- A write leaves every other index alone. -/
theorem Memory.read_write_other (m : Memory) {a j : Nat} (b : Byte) (h : j ≠ a) :
    (m.write a b).read j = m.read j := by
  induction m with
  | nil => simp [Memory.write, Memory.read_cons, h.symm]
  | cons c m ih =>
    obtain ⟨k, c⟩ := c
    unfold Memory.write
    split
    · rw [Memory.read_cons, if_neg h.symm]
    · split
      · rename_i hk
        subst hk
        simp [Memory.read_cons, h.symm]
      · simp [Memory.read_cons, ih]

/-- The indices of a written buffer are the old ones and the index written. -/
theorem Memory.mem_keys_write (m : Memory) (a : Nat) (b : Byte) (k : Nat) :
    k ∈ (m.write a b).map Prod.fst ↔ k = a ∨ k ∈ m.map Prod.fst := by
  induction m with
  | nil => simp [Memory.write]
  | cons c m ih =>
    obtain ⟨j, c⟩ := c
    unfold Memory.write
    split
    · simp
    · split
      · rename_i hj
        subst hj
        simp
      · rw [List.map_cons, List.mem_cons, ih]
        simp only [List.map_cons, List.mem_cons]
        tauto

/-- A write keeps the canonical form. -/
theorem Memory.write_wf {m : Memory} (h : m.wf) (a : Nat) (b : Byte) : (m.write a b).wf := by
  induction m with
  | nil => simp [Memory.wf, Memory.write]
  | cons c m ih =>
    obtain ⟨k, c⟩ := c
    simp only [Memory.wf, List.map_cons, List.pairwise_cons] at h ih ⊢
    unfold Memory.write
    split
    · rename_i hlt
      simp only [List.map_cons, List.pairwise_cons, List.mem_cons]
      refine ⟨fun j hj => ?_, h⟩
      rcases hj with rfl | hj
      · exact hlt
      · exact lt_trans hlt (h.1 j hj)
    · split
      · rename_i hk
        subst hk
        simpa only [List.map_cons, List.pairwise_cons] using h
      · simp only [List.map_cons, List.pairwise_cons]
        refine ⟨fun j hj => ?_, ih h.2⟩
        rcases (Memory.mem_keys_write m a b j).1 hj with rfl | hj
        · omega
        · exact h.1 j hj

@[simp] theorem Memory.readRange_zero (m : Memory) (a : Nat) : m.readRange a 0 = some [] := rfl

/-- A range read succeeds with `bs` exactly when its bytes are those read one by one. -/
theorem Memory.readRange_eq_some_iff (m : Memory) (a n : Nat) (bs : List Byte) :
    m.readRange a n = some bs ↔ bs.length = n ∧ ∀ i, i < n → m.read (a + i) = bs[i]? := by
  induction n generalizing a bs with
  | zero => cases bs <;> simp
  | succ n ih =>
    unfold Memory.readRange
    cases hb : m.read a with
    | none =>
      refine ⟨fun h => by simp at h, fun ⟨hl, h⟩ => ?_⟩
      have h0 := h 0 (by omega)
      rw [Nat.add_zero, hb, List.getElem?_eq_getElem (by omega)] at h0
      simp at h0
    | some b =>
      cases hr : m.readRange (a + 1) n with
      | none =>
        refine ⟨fun h => by simp at h, fun ⟨hl, h⟩ => ?_⟩
        cases bs with
        | nil => simp at hl
        | cons c cs =>
          have := (ih (a + 1) cs).2 ⟨by simpa using hl, fun i hi => by
            simpa [Nat.add_assoc, Nat.add_comm 1] using h (i + 1) (by omega)⟩
          rw [hr] at this
          simp at this
      | some cs =>
        simp only [Option.some.injEq]
        constructor
        · rintro rfl
          obtain ⟨hl, h⟩ := (ih (a + 1) cs).1 hr
          refine ⟨by simp [hl], fun i hi => ?_⟩
          cases i with
          | zero => simpa using hb
          | succ i => simpa [Nat.add_assoc, Nat.add_comm 1] using h i (by omega)
        · rintro ⟨hl, h⟩
          cases bs with
          | nil => simp at hl
          | cons d ds =>
            have hd := h 0 (by omega)
            have := (ih (a + 1) ds).2 ⟨by simpa using hl, fun i hi => by
              simpa [Nat.add_assoc, Nat.add_comm 1] using h (i + 1) (by omega)⟩
            simp_all

/-- A range with a byte that holds no value reads as nothing. -/
theorem Memory.readRange_eq_none (m : Memory) {a n i : Nat} (hi : i < n)
    (h : m.read (a + i) = none) : m.readRange a n = none := by
  cases hr : m.readRange a n with
  | none => rfl
  | some bs =>
    obtain ⟨hl, hb⟩ := (Memory.readRange_eq_some_iff m a n bs).1 hr
    have := hb i hi
    rw [h, List.getElem?_eq_getElem (by omega)] at this
    simp at this

/-- A range reads the same from two buffers that agree on it. -/
theorem Memory.readRange_congr {m m' : Memory} {a n : Nat}
    (h : ∀ i, i < n → m.read (a + i) = m'.read (a + i)) : m.readRange a n = m'.readRange a n := by
  induction n generalizing a with
  | zero => rfl
  | succ n ih =>
    have h0 : m.read a = m'.read a := h 0 (by omega)
    have hr : m.readRange (a + 1) n = m'.readRange (a + 1) n := ih fun i hi => by
      simpa [Nat.add_assoc, Nat.add_comm 1] using h (i + 1) (by omega)
    simp only [Memory.readRange, h0, hr]

/-- The indices of `Memory.ofBytes`. -/
theorem Memory.keys_ofBytes (a : Nat) (bs : List Byte) :
    (Memory.ofBytes a bs).map Prod.fst = List.range' a bs.length := by
  induction bs generalizing a with
  | nil => rfl
  | cons b bs ih => simp [Memory.ofBytes, ih, List.range'_succ]

/-- `Memory.ofBytes` is in canonical form. -/
theorem Memory.ofBytes_wf (a : Nat) (bs : List Byte) : (Memory.ofBytes a bs).wf := by
  rw [Memory.wf, Memory.keys_ofBytes]
  exact List.pairwise_lt_range'

/-- `Memory.ofBytes` holds exactly its bytes. -/
theorem Memory.read_ofBytes (a : Nat) (bs : List Byte) (j : Nat) :
    (Memory.ofBytes a bs).read j = if j < a then none else bs[j - a]? := by
  induction bs generalizing a with
  | nil => simp [Memory.ofBytes]
  | cons b bs ih =>
    rw [Memory.ofBytes, Memory.read_cons, ih]
    by_cases h : a = j
    · subst h
      simp
    · by_cases hj : j < a
      · simp [h, hj, Nat.lt_succ_of_lt hj]
      · have h1 : ¬ j < a + 1 := by omega
        have h2 : j - a = j - (a + 1) + 1 := by omega
        simp [h, hj, h1, h2]

/-- Reading the whole of `Memory.ofBytes` gives its bytes. -/
@[simp] theorem Memory.readRange_ofBytes (bs : List Byte) :
    (Memory.ofBytes 0 bs).readRange 0 bs.length = some bs :=
  (Memory.readRange_eq_some_iff _ _ _ _).2 ⟨rfl, fun i _ => by simp [Memory.read_ofBytes]⟩

@[simp] theorem Memory.length_cells (m : Memory) (n : Nat) : (m.cells n).length = n := by
  simp [Memory.cells]

/-- Entry `i` of the cells is what a read of index `i` gives. -/
@[simp] theorem Memory.getElem?_cells (m : Memory) {n i : Nat} (h : i < n) :
    (m.cells n)[i]? = some (m.read i) := by
  simp [Memory.cells, h]

/-- Where every byte of the range holds a value, the cells are the bytes of the range. -/
theorem Memory.cells_of_readRange {m : Memory} {n : Nat} {bs : List Byte}
    (h : m.readRange 0 n = some bs) : m.cells n = bs.map some := by
  obtain ⟨hl, hr⟩ := (Memory.readRange_eq_some_iff m 0 n bs).1 h
  refine List.ext_getElem? fun i => ?_
  by_cases hi : i < n
  · have hb := hr i hi
    rw [Nat.zero_add, List.getElem?_eq_getElem (hl ▸ hi)] at hb
    rw [Memory.getElem?_cells m hi, hb, List.getElem?_map, List.getElem?_eq_getElem (hl ▸ hi)]
    rfl
  · rw [List.getElem?_eq_none (by simp; omega), List.getElem?_eq_none (by simp; omega)]

/-- The memory of the state after reset is in canonical form. -/
theorem State.reset_memory_wf : State.reset.ibuf.wf ∧ State.reset.obuf.wf := by decide

end Sys2Proof.Machine
end

