-- ==== Sys2Proof/Laws/State.lean ====
section
/-!
SUPPORT. One lemma per field per update of the state, so that no proof unfolds a record update.
-/
namespace Sys2Proof.Machine

/-! ### A delivered result -/

@[simp] theorem State.deliver_cfg (s : State) (bytes : List Byte) : (s.deliver bytes).cfg = s.cfg := rfl
@[simp] theorem State.deliver_cmd (s : State) (bytes : List Byte) : (s.deliver bytes).cmd = s.cmd := rfl
@[simp] theorem State.deliver_status (s : State) (bytes : List Byte) : (s.deliver bytes).status = statusOk := rfl
@[simp] theorem State.deliver_ilen (s : State) (bytes : List Byte) : (s.deliver bytes).ilen = s.ilen := rfl
@[simp] theorem State.deliver_olen (s : State) (bytes : List Byte) : (s.deliver bytes).olen = bytes.length := rfl
@[simp] theorem State.deliver_ibuf (s : State) (bytes : List Byte) : (s.deliver bytes).ibuf = s.ibuf := rfl
@[simp] theorem State.deliver_obuf (s : State) (bytes : List Byte) : (s.deliver bytes).obuf = Memory.ofBytes 0 bytes := rfl
@[simp] theorem State.deliver_dec (s : State) (bytes : List Byte) : (s.deliver bytes).dec = s.dec := rfl
@[simp] theorem State.deliver_script (s : State) (bytes : List Byte) : (s.deliver bytes).script = s.script := rfl
@[simp] theorem State.deliver_seen (s : State) (bytes : List Byte) : (s.deliver bytes).seen = s.seen := rfl

/-! ### An error raised -/

@[simp] theorem State.raise_cfg (s : State) (e : Err) : (s.raise e).cfg = s.cfg := rfl
@[simp] theorem State.raise_cmd (s : State) (e : Err) : (s.raise e).cmd = s.cmd := rfl
@[simp] theorem State.raise_status (s : State) (e : Err) : (s.raise e).status = statusError e := rfl
@[simp] theorem State.raise_ilen (s : State) (e : Err) : (s.raise e).ilen = s.ilen := rfl
@[simp] theorem State.raise_olen (s : State) (e : Err) : (s.raise e).olen = 0 := rfl
@[simp] theorem State.raise_ibuf (s : State) (e : Err) : (s.raise e).ibuf = s.ibuf := rfl
@[simp] theorem State.raise_obuf (s : State) (e : Err) : (s.raise e).obuf = [] := rfl
@[simp] theorem State.raise_dec (s : State) (e : Err) : (s.raise e).dec = s.dec := rfl
@[simp] theorem State.raise_script (s : State) (e : Err) : (s.raise e).script = s.script := rfl
@[simp] theorem State.raise_seen (s : State) (e : Err) : (s.raise e).seen = s.seen := rfl

/-! ### A reset -/

@[simp] theorem State.resetEnc_cfg (s : State) : (s.resetEnc).cfg = s.cfg := rfl
@[simp] theorem State.resetEnc_cmd (s : State) : (s.resetEnc).cmd = 0#8 := rfl
@[simp] theorem State.resetEnc_status (s : State) : (s.resetEnc).status = 0#8 := rfl
@[simp] theorem State.resetEnc_ilen (s : State) : (s.resetEnc).ilen = 0 := rfl
@[simp] theorem State.resetEnc_olen (s : State) : (s.resetEnc).olen = 0 := rfl
@[simp] theorem State.resetEnc_ibuf (s : State) : (s.resetEnc).ibuf = [] := rfl
@[simp] theorem State.resetEnc_obuf (s : State) : (s.resetEnc).obuf = [] := rfl
@[simp] theorem State.resetEnc_dec (s : State) : (s.resetEnc).dec = s.dec := rfl
@[simp] theorem State.resetEnc_script (s : State) : (s.resetEnc).script = s.script := rfl
@[simp] theorem State.resetEnc_seen (s : State) : (s.resetEnc).seen = s.seen := rfl

/-! ### A value seen by the host -/

@[simp] theorem State.saw_cfg (s : State) (v : Nat) : (s.saw v).cfg = s.cfg := rfl
@[simp] theorem State.saw_cmd (s : State) (v : Nat) : (s.saw v).cmd = s.cmd := rfl
@[simp] theorem State.saw_status (s : State) (v : Nat) : (s.saw v).status = s.status := rfl
@[simp] theorem State.saw_ilen (s : State) (v : Nat) : (s.saw v).ilen = s.ilen := rfl
@[simp] theorem State.saw_olen (s : State) (v : Nat) : (s.saw v).olen = s.olen := rfl
@[simp] theorem State.saw_ibuf (s : State) (v : Nat) : (s.saw v).ibuf = s.ibuf := rfl
@[simp] theorem State.saw_obuf (s : State) (v : Nat) : (s.saw v).obuf = s.obuf := rfl
@[simp] theorem State.saw_dec (s : State) (v : Nat) : (s.saw v).dec = s.dec := rfl
@[simp] theorem State.saw_script (s : State) (v : Nat) : (s.saw v).script = s.script := rfl
@[simp] theorem State.saw_seen (s : State) (v : Nat) : (s.saw v).seen = s.seen ++ [v] := rfl

/-! ### The state after reset -/

@[simp] theorem State.resetOf_cfg (c : Config) : (State.resetOf c).cfg = c := rfl
@[simp] theorem State.resetOf_cmd (c : Config) : (State.resetOf c).cmd = 0#8 := rfl
@[simp] theorem State.resetOf_status (c : Config) : (State.resetOf c).status = 0#8 := rfl
@[simp] theorem State.resetOf_ilen (c : Config) : (State.resetOf c).ilen = 0 := rfl
@[simp] theorem State.resetOf_olen (c : Config) : (State.resetOf c).olen = 0 := rfl
@[simp] theorem State.resetOf_ibuf (c : Config) : (State.resetOf c).ibuf = [] := rfl
@[simp] theorem State.resetOf_obuf (c : Config) : (State.resetOf c).obuf = [] := rfl
@[simp] theorem State.resetOf_dec (c : Config) : (State.resetOf c).dec = ⟨[], 0, []⟩ := rfl
@[simp] theorem State.resetOf_script (c : Config) : (State.resetOf c).script = [] := rfl
@[simp] theorem State.resetOf_seen (c : Config) : (State.resetOf c).seen = [] := rfl

end Sys2Proof.Machine
end

