-- ==== Sys2Proof/Laws/Status.lean ====
section
/-!
SUPPORT. The values and fields of `STATUS` at the end of an operation (10_state R26).
-/
namespace Sys2Proof.Machine

/-- The fields of a status word read back. -/
theorem statusWord_fields (err : BitVec 3) (done busy : Bool) :
    statusBusy (statusWord err done busy) = busy ∧ statusDone (statusWord err done busy) = done ∧
    statusErr (statusWord err done busy) = err ∧
    (statusWord err done busy).extractLsb' 5 3 = 0#3 := by
  revert err done busy
  decide

@[simp] theorem statusOk_value : statusOk = 0x02#8 := by decide

@[simp] theorem statusError_illop : statusError .illop = 0x06#8 := by decide

@[simp] theorem statusError_ilen : statusError .ilen = 0x0A#8 := by decide

@[simp] theorem statusError_ovf : statusError .ovf = 0x0E#8 := by decide

@[simp] theorem statusError_inv : statusError .inv = 0x12#8 := by decide

/-- An error's status has its code in `ERR`, `DONE` 1 and `BUSY` 0. -/
theorem statusError_fields (e : Err) :
    statusBusy (statusError e) = false ∧ statusDone (statusError e) = true ∧
    statusErr (statusError e) = e.code ∧ (statusError e).extractLsb' 5 3 = 0#3 :=
  ⟨(statusWord_fields _ _ _).1, (statusWord_fields _ _ _).2.1, (statusWord_fields _ _ _).2.2.1,
    (statusWord_fields _ _ _).2.2.2⟩

/-- No error has the code 0, and none has a code above 4. -/
theorem Err.code_range (e : Err) : e.code ≠ 0#3 ∧ e.code.toNat ≤ 4 := by
  cases e <;> decide

end Sys2Proof.Machine
end

