-- ==== Sys2Proof/Laws/Ops.lean ====
section
/-!
SUPPORT. What the shared operations can do, each said once: the start of an operation, its two ends, and the
payload it reads.
-/
namespace Sys2Proof.Machine

/-- A payload that exceeds the buffer raises `ILEN` (R188). -/
theorem State.withPayload_tooLong {s : State} (h : s.cfg.ibufCap < s.ilen)
    (unit : List Byte → State) : s.withPayload unit = .next (s.raise .ilen) := by
  simp [State.withPayload, h]

/-- A payload whose bytes all hold values reaches the unit. -/
theorem State.withPayload_some {s : State} {p : List Byte} (h : s.ilen ≤ s.cfg.ibufCap)
    (hp : s.payload = some p) (unit : List Byte → State) : s.withPayload unit = .next (unit p) := by
  simp [State.withPayload, Nat.not_lt.2 h, hp]

/-- A payload with a byte that holds no value faults (U7). -/
theorem State.withPayload_none {s : State} (h : s.ilen ≤ s.cfg.ibufCap)
    (hp : s.payload = none) (unit : List Byte → State) :
    s.withPayload unit = .fault .noValue := by
  simp [State.withPayload, Nat.not_lt.2 h, hp]

/-- The only ways an operation that starts with `withPayload` ends in a next state. -/
theorem State.withPayload_next {s t : State} {unit : List Byte → State}
    (h : s.withPayload unit = .next t) :
    (s.cfg.ibufCap < s.ilen ∧ t = s.raise .ilen) ∨
    (s.ilen ≤ s.cfg.ibufCap ∧ ∃ p, s.payload = some p ∧ t = unit p) := by
  unfold State.withPayload at h
  split at h
  · rename_i hlt
    exact .inl ⟨hlt, (Host.Outcome.next.inj h).symm⟩
  · rename_i hle
    cases hp : s.payload with
    | none => simp [hp] at h
    | some p =>
      simp only [hp] at h
      exact .inr ⟨Nat.not_lt.1 hle, p, rfl, (Host.Outcome.next.inj h).symm⟩

/-- An operation that starts with `withPayload` is never refused. -/
theorem State.withPayload_not_refused (s : State) (unit : List Byte → State) (r : Refusal) :
    s.withPayload unit ≠ .refused r := by
  unfold State.withPayload
  split
  · simp
  · cases s.payload <;> simp

/-- A result that fits is delivered (R22). -/
theorem State.deliverOrOvf_fits {s : State} {bytes : List Byte}
    (h : bytes.length ≤ s.cfg.obufCap) : s.deliverOrOvf bytes = s.deliver bytes := by
  simp [State.deliverOrOvf, Nat.not_lt.2 h]

/-- A result that does not fit raises `OVF` (R189). -/
theorem State.deliverOrOvf_over {s : State} {bytes : List Byte}
    (h : s.cfg.obufCap < bytes.length) : s.deliverOrOvf bytes = s.raise .ovf := by
  simp [State.deliverOrOvf, h]

/-- The payload has `ILEN` bytes, those of `IBUF` from index 0. -/
theorem State.payload_eq_some_iff (s : State) (p : List Byte) :
    s.payload = some p ↔ p.length = s.ilen ∧ ∀ i, i < s.ilen → s.ibuf.read i = p[i]? := by
  simp [State.payload, Memory.readRange_eq_some_iff]

/-- What was delivered is what the host reads back. -/
@[simp] theorem State.deliver_result (s : State) (bytes : List Byte) :
    (s.deliver bytes).result = some bytes := by
  simp [State.result]

/-- An error leaves an empty result. -/
@[simp] theorem State.raise_result (s : State) (e : Err) : (s.raise e).result = some [] := rfl

end Sys2Proof.Machine
end

