-- ==== Sys2Proof/Laws/Fetch.lean ====
section
/-!
SUPPORT. A step by the host's next move, and what the two decoders can answer.
-/
namespace Sys2Proof.Machine

@[simp] theorem finish_run (i : Instr) (s : State) : finish (.run i s) = exec i s := rfl

@[simp] theorem finish_done (r : Result) : finish (.done r) = r := rfl

/-- With no move to come a step changes nothing (R200). -/
theorem step_idle {s : State} (h : s.script = []) : step s = .next s := by
  simp [step, fetch, h]

/-- A step takes the host's next move. -/
theorem step_of_script {s : State} {m : HostMove} {rest : List HostMove} (h : s.script = m :: rest) :
    step s = finish (hostMove { s with script := rest } m) := by
  simp [step, fetch, h]

/-- What the command decoder answers is a command (R72). -/
theorem isCommand_of_decodeCommand {c : Byte} {i : Instr} (h : decodeCommand c = .ok i) :
    i.isCommand = true := by
  unfold decodeCommand at h
  split at h
  · split at h <;> cases h <;> rfl
  · cases h

/-- A block read from a stream is a well-formed token, and the stream goes on after it. -/
theorem decodeToken_ok {pos : ExtBytePos} {bytes rest : List Byte} {i : Instr}
    (h : decodeToken pos bytes = .ok (i, rest)) :
    i.isCommand = false ∧ i.wf = true ∧ bytes.length = i.size + rest.length := by
  have short : ∀ (row : BitVec 13 → Instr) (dh : BitVec 5) (bs : List Byte),
      (∀ d, (row d).isCommand = false ∧ (row d).wf = true ∧ (row d).size = 2) →
      decodeShort row dh bs = .ok (i, rest) →
      i.isCommand = false ∧ i.wf = true ∧ bs.length + 1 = i.size + rest.length := by
    intro row dh bs hrow hd
    cases bs with
    | nil => cases hd
    | cons dl bs =>
      obtain ⟨rfl, rfl⟩ := Prod.mk.inj (Except.ok.inj hd)
      obtain ⟨h1, h2, h3⟩ := hrow (dh ++ dl)
      exact ⟨h1, h2, by rw [h3, List.length_cons]; omega⟩
  cases bytes with
  | nil => cases h
  | cons b bs =>
    simp only [decodeToken] at h
    split at h
    · unfold decodeLit at h
      split at h
      · cases h
      · rename_i hn
        obtain ⟨rfl, rfl⟩ := Prod.mk.inj (Except.ok.inj h)
        have := (b.extractLsb' 0 5).isLt
        simp only [Instr.isCommand, Instr.wf, Instr.size, List.length_take, List.length_drop,
          List.length_cons, Bool.and_eq_true, decide_eq_true_eq, true_and, Config.maxLit]
        omega
    all_goals first
      | exact short _ _ bs (fun d => ⟨rfl, rfl, rfl⟩) h
      | skip
    · unfold decodeLong at h
      split at h
      · split at h <;> obtain ⟨rfl, rfl⟩ := Prod.mk.inj (Except.ok.inj h) <;>
          exact ⟨rfl, rfl, by simp [Instr.size]; omega⟩
      · cases h

end Sys2Proof.Machine
end

