-- ==== Sys2Proof/Laws/RefDecoder.lean ====
section
/-!
SUPPORT. What the reference decoder's copy and replay do: lengths, what is kept, what is appended.
-/
namespace Sys2Proof.Machine

@[simp] theorem copyBytes_zero (dist : Nat) (out : List Byte) : copyBytes dist 0 out = out := rfl

/-- One byte of a copy (R127). -/
theorem copyBytes_succ (dist k : Nat) (out : List Byte) :
    copyBytes dist (k + 1) out = copyBytes dist k (out ++ [out.getD (out.length - dist) 0#8]) := rfl

@[simp] theorem copyBytes_length (dist k : Nat) (out : List Byte) :
    (copyBytes dist k out).length = out.length + k := by
  induction k generalizing out with
  | zero => rfl
  | succ k ih =>
    rw [copyBytes_succ, ih, List.length_append, List.length_singleton]
    omega

/-- A copy only appends. -/
theorem copyBytes_prefix (dist k : Nat) (out : List Byte) : out <+: copyBytes dist k out := by
  induction k generalizing out with
  | zero => exact List.prefix_rfl
  | succ k ih => exact (List.prefix_append _ _).trans (ih _)

/-- A copy keeps the bytes already there. -/
theorem copyBytes_getElem_old (dist k : Nat) (out : List Byte) {j : Nat} (h : j < out.length) :
    (copyBytes dist k out)[j]? = out[j]? := by
  obtain ⟨tail, ht⟩ := copyBytes_prefix dist k out
  rw [← ht, List.getElem?_append_left h]

/-- Each copied byte equals the byte `dist` places before it, also where the copy overlaps itself (R62). -/
theorem copyBytes_getElem_new {dist : Nat} (hd : 1 ≤ dist) (k : Nat) (out : List Byte)
    (ho : dist ≤ out.length) {j : Nat} (h : j < k) :
    (copyBytes dist k out)[out.length + j]? = (copyBytes dist k out)[out.length + j - dist]? := by
  induction k generalizing out j with
  | zero => omega
  | succ k ih =>
    rw [copyBytes_succ]
    have hlen : (out ++ [out.getD (out.length - dist) 0#8]).length = out.length + 1 := by simp
    cases j with
    | zero =>
      rw [copyBytes_getElem_old _ _ _ (by omega), copyBytes_getElem_old _ _ _ (by omega)]
      rw [List.getElem?_append_right (by omega), List.getElem?_append_left (by omega)]
      simp [List.getD_eq_getElem?_getD, List.getElem?_eq_getElem (show out.length - dist < out.length by omega)]
    | succ j =>
      have := ih (out ++ [out.getD (out.length - dist) 0#8]) (by omega) (j := j) (by omega)
      rw [hlen] at this
      rw [show out.length + (j + 1) = out.length + 1 + j by omega]
      exact this

/-- When a token can be replayed, and what it leaves (R126, R127). -/
theorem replayToken_eq_some_iff (t : Token) (out out' : List Byte) :
    replayToken t out = some out' ↔
      (∃ bytes, t = .lit bytes ∧ out' = out ++ bytes) ∨
      (∃ len dist, t = .dist len dist ∧ 1 ≤ dist ∧ dist ≤ out.length ∧
        out' = copyBytes dist len out) := by
  cases t with
  | lit bytes => simp [replayToken, eq_comm]
  | dist len d =>
    simp only [replayToken, reduceCtorEq, false_and, exists_false, false_or, Token.dist.injEq]
    split
    · rename_i hbad
      constructor
      · simp
      · rintro ⟨_, _, ⟨rfl, rfl⟩, h1, h2, _⟩
        omega
    · rename_i hok
      constructor
      · intro h
        exact ⟨len, d, ⟨rfl, rfl⟩, by omega, by omega, (Option.some.inj h).symm⟩
      · rintro ⟨_, _, ⟨rfl, rfl⟩, _, _, rfl⟩
        rfl

/-- A replayed token only appends. -/
theorem replayToken_prefix {t : Token} {out out' : List Byte}
    (h : replayToken t out = some out') : out <+: out' := by
  rcases (replayToken_eq_some_iff t out out').1 h with ⟨bytes, _, rfl⟩ | ⟨len, d, _, _, _, rfl⟩
  · exact List.prefix_append _ _
  · exact copyBytes_prefix _ _ _

/-- Replaying a concatenation is replaying its parts in order. -/
theorem replayFrom_append (ts us : List Token) (out : List Byte) :
    replayFrom (ts ++ us) out = (replayFrom ts out).bind (replayFrom us) := by
  induction ts generalizing out with
  | nil => rfl
  | cons t ts ih =>
    simp only [List.cons_append, replayFrom]
    cases replayToken t out with
    | none => rfl
    | some out' => exact ih out'

/-- The only way a decoder step ends in a next state. -/
theorem State.replayStep_next {s u : State} {t : Token} {size : Nat}
    (h : s.replayStep t size = .next u) :
    ∃ out, replayToken t s.dec.out = some out ∧
      u = { s with dec := ⟨s.dec.stream, s.dec.i + size, out⟩ } := by
  unfold State.replayStep at h
  cases hr : replayToken t s.dec.out with
  | none => simp [hr] at h
  | some out =>
    simp only [hr, Host.Outcome.next.injEq] at h
    exact ⟨out, rfl, h.symm⟩

/-- A decoder step is never refused. -/
theorem State.replayStep_not_refused (s : State) (t : Token) (size : Nat) (r : Refusal) :
    s.replayStep t size ≠ .refused r := by
  unfold State.replayStep
  cases replayToken t s.dec.out <;> simp

end Sys2Proof.Machine
end

