-- ==== Sys2Proof/Laws/Exec.lean ====
section
/-!
SUPPORT. Everything an instruction can do, said once: each command is a unit behind the shared start of an
operation, each block is one decoder step; and what a step can be.
-/
namespace Sys2Proof.Machine

/-- What the unit of a command makes of a payload: a result that fits an admissible output buffer, or an error;
and it depends on the payload, `OBUF_CAP` and `EXT_BYTE_POS` alone (R34). -/
structure IsUnit (unit : State → List Byte → State) : Prop where
  ends : ∀ s p, (∃ bytes, unit s p = s.deliver bytes ∧
      (s.cfg.Admissible → bytes.length ≤ s.cfg.obufCap)) ∨ ∃ e, unit s p = s.raise e
  depends : ∀ s s' p, s.cfg.obufCap = s'.cfg.obufCap → s.cfg.extPos = s'.cfg.extPos →
    (unit s p).obuf = (unit s' p).obuf ∧ (unit s p).olen = (unit s' p).olen ∧
    (unit s p).status = (unit s' p).status

/-- A unit that checks its whole result against the output buffer. -/
theorem isUnit_deliverOrOvf (f : List Byte → List Byte) :
    IsUnit fun s p => s.deliverOrOvf (f p) where
  ends s p := by
    rcases Nat.lt_or_ge s.cfg.obufCap (f p).length with h | h
    · exact .inr ⟨.ovf, State.deliverOrOvf_over h⟩
    · exact .inl ⟨f p, State.deliverOrOvf_fits h, fun _ => h⟩
  depends s s' p h _ := by
    rcases Nat.lt_or_ge s.cfg.obufCap (f p).length with hlt | hge
    · simp [State.deliverOrOvf_over hlt, State.deliverOrOvf_over (h ▸ hlt)]
    · simp [State.deliverOrOvf_fits hge, State.deliverOrOvf_fits (h ▸ hge)]

/-- The compressor's unit at any level. -/
theorem isUnit_compress (toks : List Byte → List Token) :
    IsUnit fun s p =>
      match encodeTokens s.cfg.extPos (toks p) with
      | .error e => s.raise e
      | .ok stream => s.deliverOrOvf stream where
  ends s p := by
    cases encodeTokens s.cfg.extPos (toks p) with
    | error e => exact .inr ⟨e, rfl⟩
    | ok stream => exact (isUnit_deliverOrOvf fun _ => stream).ends s p
  depends s s' p h hx := by
    rw [← hx]
    cases encodeTokens s.cfg.extPos (toks p) with
    | error e => simp
    | ok stream => exact (isUnit_deliverOrOvf fun _ => stream).depends s s' p h hx

/-- Every command is a unit behind the shared start of an operation. -/
theorem exec_command {i : Instr} (hi : i.isCommand = true) :
    ∃ unit, IsUnit unit ∧ ∀ s, exec i s = s.withPayload (unit s) := by
  cases i with
  | chk =>
    refine ⟨_, ⟨fun s p => .inl ⟨[chk p], rfl, fun h => ?_⟩, fun s s' p _ _ => ⟨rfl, rfl, rfl⟩⟩, fun s => rfl⟩
    exact Nat.le_trans (by simp) (Nat.le_trans (Nat.le_trans h.1 (Nat.le_add_right _ _)) h.2)
  | neg => exact ⟨_, isUnit_deliverOrOvf neg, fun s => rfl⟩
  | wave => exact ⟨_, isUnit_deliverOrOvf fun p => ser16 (wave timingTable (bits p)), fun s => rfl⟩
  | comp0 => exact ⟨_, isUnit_compress tokens0, fun s => rfl⟩
  | comp1 => exact ⟨_, isUnit_compress tokens1, fun s => rfl⟩
  | comp2 => exact ⟨_, isUnit_compress tokens2, fun s => rfl⟩
  | comp3 => exact ⟨_, isUnit_compress tokens3, fun s => rfl⟩
  | lit data => cases hi
  | distS1 d => cases hi
  | distS2 d => cases hi
  | distS3 d => cases hi
  | distS4 d => cases hi
  | distS5 d => cases hi
  | distS6 d => cases hi
  | distL d ext => cases hi

/-- The only next states of a command: an error raised, or a result delivered. -/
theorem exec_command_next {i : Instr} {s t : State} (hi : i.isCommand = true)
    (h : exec i s = .next t) :
    (∃ e, t = s.raise e) ∨
    ∃ bytes, t = s.deliver bytes ∧ (s.cfg.Admissible → bytes.length ≤ s.cfg.obufCap) := by
  obtain ⟨unit, hu, hx⟩ := exec_command hi
  rw [hx] at h
  rcases State.withPayload_next h with ⟨_, rfl⟩ | ⟨_, p, _, rfl⟩
  · exact .inl ⟨_, rfl⟩
  · rcases hu.ends s p with ⟨bytes, hb, hl⟩ | ⟨e, he⟩
    · exact .inr ⟨bytes, hb, hl⟩
    · exact .inl ⟨e, he⟩

/-- Every well-formed block is one decoder step with its token. -/
theorem exec_token {i : Instr} (hi : i.isCommand = false) (hw : i.wf = true) :
    ∃ t, tokenOf i = some t ∧ ∀ s, exec i s = s.replayStep t i.size := by
  cases i with
  | lit data =>
    simp only [Instr.wf, Bool.and_eq_true, decide_eq_true_eq] at hw
    refine ⟨_, rfl, fun s => ?_⟩
    show execLit data s = _
    rw [execLit, if_neg (by omega)]
    rfl
  | distS1 d => exact ⟨_, rfl, fun s => rfl⟩
  | distS2 d => exact ⟨_, rfl, fun s => rfl⟩
  | distS3 d => exact ⟨_, rfl, fun s => rfl⟩
  | distS4 d => exact ⟨_, rfl, fun s => rfl⟩
  | distS5 d => exact ⟨_, rfl, fun s => rfl⟩
  | distS6 d => exact ⟨_, rfl, fun s => rfl⟩
  | distL d ext => exact ⟨_, rfl, fun s => rfl⟩
  | chk => cases hi
  | neg => cases hi
  | wave => cases hi
  | comp0 => cases hi
  | comp1 => cases hi
  | comp2 => cases hi
  | comp3 => cases hi

/-- What a fetched instruction is: a command accepted with `CMD` written, or the block the decoder has reached. -/
theorem hostMove_run {s s' : State} {m : HostMove} {i : Instr} (h : hostMove s m = .run i s') :
    (∃ v, m = .writeReg 0 v ∧ v < 256 ∧ decodeCommand (BitVec.ofNat 8 v) = .ok i ∧
      s' = { s with cmd := BitVec.ofNat 8 v }) ∨
    (m = .replayBlock ∧ s.dec.i < s.dec.stream.length ∧ s' = s ∧
      ∃ after, decodeToken s.cfg.extPos (s.dec.stream.drop s.dec.i) = .ok (i, after)) := by
  cases m with
  | writeReg r v =>
    rcases r with _ | _ | _ | _ | r <;> simp only [hostMove, writeReg] at h
    · split at h
      · rename_i hv
        unfold acceptCommand at h
        split at h
        · rename_i j hj
          cases h
          exact .inl ⟨v, rfl, hv, hj, rfl⟩
        · cases h
      · cases h
    · split at h <;> cases h
    · split at h <;> cases h
    · split at h <;> cases h
    · cases h
  | replayBlock =>
    simp only [hostMove, nextBlock] at h
    split at h
    · rename_i hlt
      split at h
      · rename_i j after hj
        cases h
        exact .inr ⟨rfl, hlt, rfl, after, hj⟩
      · cases h
    · cases h
  | readReg r => cases h
  | writeIbuf a b => cases h
  | readIbuf a => cases h
  | writeObuf a b => cases h
  | readObuf a => cases h
  | reset => cases h
  | loadStream bytes => cases h

/-- What a move of the host that runs no instruction leaves, where it leaves a next state. -/
theorem hostMove_done_next {s t : State} {m : HostMove} (h : hostMove s m = .done (.next t)) :
    (∃ v, m = .writeReg 0 v ∧ v < 256 ∧ t = State.raise { s with cmd := BitVec.ofNat 8 v } .illop) ∨
    (∃ v, m = .writeReg 2 v ∧ v < 2 ^ s.cfg.lenW ∧ t = { s with ilen := v }) ∨
    (∃ a b, m = .writeIbuf a b ∧ a < s.cfg.ibufCap ∧ t = { s with ibuf := s.ibuf.write a b }) ∨
    (∃ v, t = s.saw v) ∨
    (m = .reset ∧ t = s.resetEnc) ∨
    (∃ bytes, m = .loadStream bytes ∧ t = { s with dec := ⟨bytes, 0, []⟩ }) ∨
    t = s := by
  cases m with
  | writeReg r v =>
    rcases r with _ | _ | _ | _ | r <;> simp only [hostMove, writeReg] at h
    · split at h
      · rename_i hv
        unfold acceptCommand at h
        split at h
        · cases h
        · cases h
          exact .inl ⟨v, rfl, hv, rfl⟩
      · cases h
    · split at h
      · cases h
        simp
      · cases h
    · split at h
      · rename_i hv
        cases h
        exact .inr (.inl ⟨v, rfl, hv, rfl⟩)
      · cases h
    · split at h
      · cases h
        simp
      · cases h
    · cases h
  | readReg r =>
    simp only [hostMove, readReg] at h
    split at h
    · cases h
      simp
    · cases h
  | writeIbuf a b =>
    simp only [hostMove, writeIbuf] at h
    split at h
    · rename_i ha
      cases h
      exact .inr (.inr (.inl ⟨a, b, rfl, ha, rfl⟩))
    · cases h
  | readIbuf a => cases h
  | writeObuf a b =>
    simp only [hostMove, writeObuf] at h
    split at h
    · cases h
      simp
    · cases h
  | readObuf a =>
    simp only [hostMove, readObuf] at h
    split at h
    · split at h
      · cases h
        simp
      · cases h
    · cases h
  | reset =>
    cases h
    simp
  | loadStream bytes =>
    cases h
    simp
  | replayBlock =>
    simp only [hostMove, nextBlock] at h
    split at h
    · split at h <;> cases h
    · cases h
      simp

end Sys2Proof.Machine
end

