-- ==== Sys2Proof/Laws/Formatter.lean ====
section
/-!
SUPPORT. The cutting of literal runs and the concatenation of blocks.
-/
namespace Sys2Proof.Machine

/-- Fuel beyond the length of the run changes nothing. -/
theorem chunksFuel_eq {fuel : Nat} {bytes : List Byte} (h : bytes.length ≤ fuel) :
    chunksFuel fuel bytes = chunks bytes := by
  suffices ∀ (n : Nat) (f g : Nat) (b : List Byte), b.length ≤ n → b.length ≤ f → b.length ≤ g →
      chunksFuel f b = chunksFuel g b from this bytes.length _ _ bytes le_rfl h le_rfl
  intro n
  induction n with
  | zero =>
    intro f g b hb _ _
    have : b = [] := List.length_eq_zero_iff.1 (by omega)
    subst this
    cases f <;> cases g <;> rfl
  | succ n ih =>
    intro f g b hb hf hg
    cases b with
    | nil => cases f <;> cases g <;> rfl
    | cons c b =>
      cases f with
      | zero => simp at hf
      | succ f =>
        cases g with
        | zero => simp at hg
        | succ g =>
          simp only [chunksFuel]
          rw [ih f g] <;> simp only [List.length_drop, List.length_cons, Config.maxLit] at * <;> omega

@[simp] theorem chunks_nil : chunks [] = [] := rfl

/-- The first piece of a literal run and the pieces of the rest (R121). -/
theorem chunks_of_ne_nil {bytes : List Byte} (h : bytes ≠ []) :
    chunks bytes = bytes.take Config.maxLit :: chunks (bytes.drop Config.maxLit) := by
  cases bytes with
  | nil => exact absurd rfl h
  | cons b bs =>
    show chunksFuel (bs.length + 1) (b :: bs) = _
    rw [chunksFuel, chunksFuel_eq]
    simp only [List.length_drop, List.length_cons, Config.maxLit]
    omega

/-- A proof about the pieces of a literal run goes piece by piece. -/
theorem chunks_induction {motive : List Byte → Prop} (nil : motive [])
    (step : ∀ bytes, bytes ≠ [] → motive (bytes.drop Config.maxLit) → motive bytes)
    (bytes : List Byte) : motive bytes := by
  suffices ∀ n, ∀ b : List Byte, b.length ≤ n → motive b from this _ bytes le_rfl
  intro n
  induction n with
  | zero =>
    intro b hb
    rw [List.length_eq_zero_iff.1 (Nat.le_zero.1 hb)]
    exact nil
  | succ n ih =>
    intro b hb
    by_cases h : b = []
    · rw [h]
      exact nil
    · refine step b h (ih _ ?_)
      have := List.length_pos_of_ne_nil h
      simp only [List.length_drop, Config.maxLit]
      omega

/-- Every piece has 1 to 32 bytes. -/
theorem length_of_mem_chunks (bytes : List Byte) :
    ∀ c ∈ chunks bytes, 1 ≤ c.length ∧ c.length ≤ Config.maxLit := by
  induction bytes using chunks_induction with
  | nil => simp
  | step b h ih =>
    have hpos := List.length_pos_of_ne_nil h
    rw [chunks_of_ne_nil h]
    intro c hc
    rcases List.mem_cons.1 hc with rfl | hc
    · simp only [List.length_take, Config.maxLit]
      omega
    · exact ih c hc

/-- The pieces concatenate to the run. -/
theorem chunks_flatten (bytes : List Byte) : (chunks bytes).flatten = bytes := by
  induction bytes using chunks_induction with
  | nil => rfl
  | step b h ih => rw [chunks_of_ne_nil h, List.flatten_cons, ih, List.take_append_drop]

/-- Literal tokens meet the formatter's contract (R156). -/
theorem lits_inRange (bytes : List Byte) : ∀ t ∈ lits bytes, t.inRange = true := by
  intro t ht
  obtain ⟨c, hc, rfl⟩ := List.mem_map.1 ht
  have := length_of_mem_chunks bytes c hc
  simp [Token.inRange, this.1, this.2]

/-- Literal blocks replayed append their pieces. -/
theorem replayFrom_map_lit (cs : List (List Byte)) (out : List Byte) :
    replayFrom (cs.map .lit) out = some (out ++ cs.flatten) := by
  induction cs generalizing out with
  | nil => simp [replayFrom]
  | cons c cs ih => simp [replayFrom, replayToken, ih]

/-- A literal run replayed appends the run. -/
@[simp] theorem replayFrom_lits (bytes out : List Byte) :
    replayFrom (lits bytes) out = some (out ++ bytes) := by
  rw [lits, replayFrom_map_lit, chunks_flatten]

@[simp] theorem lits_nil : lits [] = [] := rfl

/-- The blocks of a concatenation are the blocks of its parts in order (R124). -/
theorem encodeTokens_append {pos : ExtBytePos} {ts us : List Token} {a b : List Byte}
    (ha : encodeTokens pos ts = .ok a) (hb : encodeTokens pos us = .ok b) :
    encodeTokens pos (ts ++ us) = .ok (a ++ b) := by
  induction ts generalizing a with
  | nil =>
    cases ha
    exact hb
  | cons t ts ih =>
    simp only [List.cons_append, encodeTokens] at ha ⊢
    cases hx : emit pos t with
    | error e => simp [hx] at ha
    | ok x =>
      simp only [hx] at ha
      cases hy : encodeTokens pos ts with
      | error e => simp [hy] at ha
      | ok y =>
        simp only [hy, Except.ok.injEq] at ha
        rw [ih hy]
        simp [← ha]

end Sys2Proof.Machine
end

