-- ==== Sys2Proof/Laws/PerInstr.lean ====
section
/-!
SUPPORT. The statement made for every instruction: its encoding has the size its form gives it (30_encoding R70,
R79), whichever place the extension byte has.
-/
namespace Sys2Proof.Laws.EncodeSize

open Sys2Proof

/-- A well-formed instruction's encoding has `size` bytes, 1 to 33 of them. -/
def Statement (i : Instr) : Prop :=
  i.WellFormed → ∀ pos, (encode pos i).length = i.size ∧ 1 ≤ i.size ∧ i.size ≤ 33

theorem chk : Statement .chk := fun _ _ => by simp [encode, Instr.size]
theorem neg : Statement .neg := fun _ _ => by simp [encode, Instr.size]
theorem wave : Statement .wave := fun _ _ => by simp [encode, Instr.size]
theorem comp0 : Statement .comp0 := fun _ _ => by simp [encode, Instr.size]
theorem comp1 : Statement .comp1 := fun _ _ => by simp [encode, Instr.size]
theorem comp2 : Statement .comp2 := fun _ _ => by simp [encode, Instr.size]
theorem comp3 : Statement .comp3 := fun _ _ => by simp [encode, Instr.size]

theorem lit (data : List Byte) : Statement (.lit data) := by
  intro h pos
  simp only [Instr.WellFormed, Instr.wf, Bool.and_eq_true, decide_eq_true_eq, Config.maxLit] at h
  simp only [encode, Instr.size, List.length_cons]
  omega

theorem distS1 (d : BitVec 13) : Statement (.distS1 d) := fun _ _ => by simp [encode, encodeShort, Instr.size]
theorem distS2 (d : BitVec 13) : Statement (.distS2 d) := fun _ _ => by simp [encode, encodeShort, Instr.size]
theorem distS3 (d : BitVec 13) : Statement (.distS3 d) := fun _ _ => by simp [encode, encodeShort, Instr.size]
theorem distS4 (d : BitVec 13) : Statement (.distS4 d) := fun _ _ => by simp [encode, encodeShort, Instr.size]
theorem distS5 (d : BitVec 13) : Statement (.distS5 d) := fun _ _ => by simp [encode, encodeShort, Instr.size]
theorem distS6 (d : BitVec 13) : Statement (.distS6 d) := fun _ _ => by simp [encode, encodeShort, Instr.size]

theorem distL (d : BitVec 13) (ext : BitVec 8) : Statement (.distL d ext) := by
  intro _ pos
  cases pos <;> simp [encode, encodeShort, Instr.size]

end Sys2Proof.Laws.EncodeSize
end

