-- ==== Sys2Proof/Tests/Slice0.lean ====
section
/-!
SUPPORT. Tests against the spec's own worked examples and vectors (95_test_vectors), each named there, and for
every statement with hypotheses a concrete case that meets them.
-/
namespace Sys2Proof.Tests

open Sys2Proof Sys2Proof.Machine

/-! ### Helpers -/

/-- The smallest `IBUF_CAP` of R4, and the given `OBUF_CAP`. -/
def small (obufCap : Nat) : Config := ⟨400, obufCap, .trailing, ⟨0, 1, 0, 0⟩⟩

/-- A machine with small capacities, `p` in `IBUF`, and the host about to make the moves `ms`. -/
def loaded (p : List Byte) (ms : List HostMove) : State :=
  { State.resetOf (small 413) with ibuf := Memory.ofBytes 0 p, ilen := p.length, script := ms }

/-- The result, the result length and the status a step leaves. -/
def outcome (r : Result) : Option (Option (List Byte) × Nat × Byte) :=
  match r with
  | .next t => some (t.result, t.olen, t.status)
  | .fault _ => none
  | .refused _ => none

/-- The decoder a step leaves. -/
def decoderAfter (r : Result) : Option Decoder :=
  match r with
  | .next t => some t.dec
  | .fault _ => none
  | .refused _ => none

/-- The fault a step ends in. -/
def faultOf (r : Result) : Option Fault :=
  match r with
  | .next _ => none
  | .fault f => some f
  | .refused _ => none

/-- The refusal a step ends in. -/
def refusalOf (r : Result) : Option Refusal :=
  match r with
  | .next _ => none
  | .fault _ => none
  | .refused x => some x

/-- The next state of a step, or the reset state where it stops. -/
def after (r : Result) : State :=
  match r with
  | .next t => t
  | .fault _ => State.reset
  | .refused _ => State.reset

/-- The decoder before a block, with `out` decoded so far. -/
def decoding (stream out : List Byte) : State :=
  { State.resetOf (small 413) with dec := ⟨stream, 0, out⟩, script := [.replayBlock] }

/-! ### Well-formedness -/

/-- R75: a literal block of length 0 does not exist. -/
theorem test_wf_refuses_empty_literal : ¬ (Instr.lit []).WellFormed := by decide

/-- R75: the length field has 5 bits, so 33 bytes are too many. -/
theorem test_wf_refuses_33_byte_literal : ¬ (Instr.lit (List.replicate 33 0#8)).WellFormed := by decide

theorem test_wf_accepts_32_byte_literal : (Instr.lit (List.replicate 32 0#8)).WellFormed := by decide

/-- Log entry 20: an ill-formed literal is refused by name. -/
theorem test_ill_formed_literal_is_refused :
    refusalOf (exec (.lit []) (loaded [] [])) = some .illFormed := by decide

/-! ### Decoding: words written out from R71, R75, R76, R77 -/

theorem test_decode_chk : decodeCommand 0b00000001#8 = .ok .chk := by decide

theorem test_decode_comp3 : decodeCommand 0b00000111#8 = .ok .comp3 := by decide

/-- V20: a `CMD` write with bits 7:4 not zero, for example 0x16, is reserved. -/
theorem test_decode_reserved : decodeCommand 0x16#8 = .error .reserved := by decide

/-- R75: kind 000, nm1 00001, two bytes. -/
theorem test_decode_lit :
    decodeToken .trailing [0b00000001#8, 0x61#8, 0x62#8, 0x40#8] = .ok (.lit [0x61#8, 0x62#8], [0x40#8]) := by
  decide

/-- V10: `DIST 6,200` = 80 C7. -/
theorem test_decode_distS4 : decodeToken .trailing [0x80#8, 0xC7#8] = .ok (.distS4 199#13, []) := by
  decide

/-- V10: `DIST 8,8192` = DF FF. -/
theorem test_decode_distS6 : decodeToken .trailing [0xDF#8, 0xFF#8] = .ok (.distS6 8191#13, []) := by
  decide

/-- V10: `DIST 100,2` = E0 01 5B, `ext` = 91. -/
theorem test_decode_distL :
    decodeToken .trailing [0xE0#8, 0x01#8, 0x5B#8] = .ok (.distL 1#13 91#8, []) := by decide

/-- V10: `DIST 100,2` in `middle` form = E0 5B 01. -/
theorem test_decode_distL_middle :
    decodeToken .middle [0xE0#8, 0x5B#8, 0x01#8] = .ok (.distL 1#13 91#8, []) := by decide

/-- The opcode table's rows as numbers: the command space first, then block heads (log entry 6). -/
theorem test_table_words :
    decodeTableWord 8 0x03 = some .wave ∧ decodeTableWord 8 0x00 = some (.lit [0#8]) ∧
    decodeTableWord 16 0xFF3F = some (.distS1 8191#13) ∧
    decodeTableWord 24 0x012BE1 = some (.distL 299#13 1#8) := by decide

/-- A table word placed after reset is what the next step runs. -/
theorem test_fetch_word_runs :
    outcome (step (State.reset.withFetchWord 8 0x01)) = some (some [0x00#8], 1, 0x02#8) ∧
    decoderAfter (step (State.reset.withFetchWord 16 0x4100)) =
      some ⟨tableBytes 16 0x4100, 2, [0x41#8]⟩ := by decide

/-! ### The units on the spec's vectors -/

/-- V4, and V6 for the wrap. -/
theorem test_chk_vectors :
    chk [0xA4#8, 0x82#8, 0x48#8, 0x7F#8, 0x16#8] = 0x44#8 ∧ chk [] = 0x00#8 ∧ chk [0x80#8] = 0xFF#8 ∧
    chk [0xFF#8, 0xFF#8] = 0x40#8 ∧ chk [0x5B#8, 0x7D#8, 0xB7#8, 0x80#8, 0xE9#8] = 0xC7#8 := by decide

/-- R92's worked example, run as a step. -/
theorem test_chk_step :
    outcome (step (loaded [0xA4#8, 0x82#8, 0x48#8, 0x7F#8, 0x16#8] [.writeReg 0 1])) =
      some (some [0x44#8], 1, 0x02#8) := by decide

/-- R101's worked example, run as a step. -/
theorem test_neg_step :
    outcome (step (loaded [0xA4#8, 0x82#8, 0x48#8, 0x7F#8, 0x16#8, 0x44#8] [.writeReg 0 2])) =
      some (some [0x5B#8, 0x7D#8, 0xB7#8, 0x80#8, 0xE9#8, 0xBB#8], 6, 0x02#8) := by decide

/-- R111: `WAVE` of the empty payload. -/
theorem test_wave_empty_step :
    outcome (step (loaded [] [.writeReg 0 3])) =
      some (some [0x91#8, 0x11#8, 0x91#8, 0x11#8, 0x4C#8, 0x02#8, 0xE1#8, 0x15#8], 8, 0x02#8) := by decide

/-- R109's worked example: the byte A5. -/
theorem test_wave_a5 :
    ser16 (wave timingTable (bits [0xA5#8])) =
      [0x91#8, 0x11#8, 0x91#8, 0x11#8, 0x4C#8, 0x02#8, 0x79#8, 0x06#8, 0x4C#8, 0x02#8, 0x4C#8, 0x02#8,
        0x4C#8, 0x02#8, 0x79#8, 0x06#8, 0x4C#8, 0x02#8, 0x4C#8, 0x02#8, 0x4C#8, 0x02#8, 0x4C#8, 0x02#8,
        0x4C#8, 0x02#8, 0x79#8, 0x06#8, 0x4C#8, 0x02#8, 0x4C#8, 0x02#8, 0x4C#8, 0x02#8, 0x79#8, 0x06#8,
        0x4C#8, 0x02#8, 0xE1#8, 0x15#8] := by decide

/-- V10: long blocks in both forms, and the refused operands. -/
theorem test_emit_vectors :
    emitDist .trailing 10 300 = .ok [0xE1#8, 0x2B#8, 0x01#8] ∧
    emitDist .middle 10 300 = .ok [0xE1#8, 0x01#8, 0x2B#8] ∧
    emitDist .trailing 264 8192 = .ok [0xFF#8, 0xFF#8, 0xFF#8] ∧
    emitDist .trailing 265 1 = .error .inv ∧ emitDist .trailing 3 8193 = .error .inv := by decide

/-- V12: four equal bytes at every level. -/
theorem test_comp_equal_bytes :
    (fun k => encodeTokens .trailing (tokens k [0x41#8, 0x41#8, 0x41#8, 0x41#8])) 0 =
      .ok [0x03#8, 0x41#8, 0x41#8, 0x41#8, 0x41#8] ∧
    ∀ k : Fin 4, k ≠ 0 →
      encodeTokens .trailing (tokens k [0x41#8, 0x41#8, 0x41#8, 0x41#8]) =
        .ok [0x00#8, 0x41#8, 0x20#8, 0x00#8] := by decide

/-- V16's payload. -/
def v16 : List Byte :=
  [0x00#8, 0x01#8, 0x00#8, 0x01#8, 0x00#8, 0x00#8, 0x01#8, 0x00#8, 0x01#8, 0x00#8, 0x01#8, 0x00#8]

/-- V21, `COMP.1`. -/
theorem test_comp1_step :
    outcome (step (loaded v16 [.writeReg 0 5])) =
      some (some [0x01#8, 0x00#8, 0x01#8, 0x20#8, 0x01#8, 0x20#8, 0x02#8, 0x40#8, 0x01#8], 9, 0x02#8) := by
  decide +kernel

/-- V21, `COMP.2`. -/
theorem test_comp2_step :
    outcome (step (loaded v16 [.writeReg 0 6])) =
      some (some [0x01#8, 0x00#8, 0x01#8, 0x20#8, 0x01#8, 0x60#8, 0x04#8, 0x01#8, 0x01#8, 0x00#8], 10,
        0x02#8) := by decide +kernel

/-- V21, `COMP.3`. -/
theorem test_comp3_step :
    outcome (step (loaded v16 [.writeReg 0 7])) =
      some (some [0x01#8, 0x00#8, 0x01#8, 0x20#8, 0x01#8, 0x20#8, 0x04#8, 0x40#8, 0x01#8], 9, 0x02#8) := by
  decide +kernel

/-- V15: the final level-3 table of `abcabcabc`. -/
theorem test_cost_table :
    costTable [0x61#8, 0x62#8, 0x63#8, 0x61#8, 0x62#8, 0x63#8, 0x61#8, 0x62#8, 0x63#8] =
      [some ⟨0, 0, 0⟩, some ⟨2, 1, 0⟩, some ⟨3, 2, 0⟩, some ⟨4, 3, 0⟩, some ⟨5, 4, 0⟩, some ⟨6, 5, 0⟩,
        some ⟨6, 3, 3⟩, some ⟨6, 4, 3⟩, some ⟨6, 5, 3⟩, some ⟨6, 6, 3⟩] := by decide +kernel

/-- V11: an overlapping copy, and the two faults. -/
theorem test_decode_stream_vectors :
    decodeStream .trailing [0x02#8, 0x61#8, 0x62#8, 0x63#8, 0x80#8, 0x02#8] =
      .ok [0x61#8, 0x62#8, 0x63#8, 0x61#8, 0x62#8, 0x63#8, 0x61#8, 0x62#8, 0x63#8] ∧
    decodeStream .trailing [0x00#8, 0x41#8, 0x20#8, 0x01#8] = .error .dist ∧
    decodeStream .trailing [0x00#8, 0x41#8, 0xE0#8, 0x00#8] = .error .trunc := by decide

/-- V11 as decoder steps: `DIST 4,2` after `61 62`, and `DIST 3,1` with nothing decoded. -/
theorem test_dist_steps :
    decoderAfter (step (decoding [0x40#8, 0x01#8] [0x61#8, 0x62#8])) =
      some ⟨[0x40#8, 0x01#8], 2, [0x61#8, 0x62#8, 0x61#8, 0x62#8, 0x61#8, 0x62#8]⟩ ∧
    faultOf (step (decoding [0x20#8, 0x00#8] [])) = some .decDist ∧
    faultOf (step (decoding [0x05#8, 0x41#8] [])) = some .decTrunc := by decide

/-- The LIT step. -/
theorem test_lit_step :
    decoderAfter (step (decoding [0x00#8, 0x41#8, 0x20#8] [0x40#8])) =
      some ⟨[0x00#8, 0x41#8, 0x20#8], 2, [0x40#8, 0x41#8]⟩ := by decide

/-! ### Errors, faults and refusals -/

/-- V20: the reserved word 09 leaves `STATUS` 06. -/
theorem test_illop_step :
    outcome (step (loaded [0x41#8] [.writeReg 0 9])) = some (some [], 0, 0x06#8) := by decide

/-- V20: `ILEN` beyond the capacity leaves `STATUS` 0A. -/
theorem test_ilen_step :
    outcome (step { loaded [] [.writeReg 0 1] with ilen := 401 }) = some (some [], 0, 0x0A#8) := by decide

/-- V20: a pulse train beyond the output buffer leaves `STATUS` 0E. -/
theorem test_ovf_step :
    outcome (step { loaded [0x00#8] [.writeReg 0 3] with cfg := small 39 }) =
      some (some [], 0, 0x0E#8) := by decide

/-- U7: a payload byte that was never written. -/
theorem test_no_value_fault :
    faultOf (step { loaded [0x41#8] [.writeReg 0 2] with ilen := 2 }) = some .noValue := by decide

/-- R57: a write of `STATUS` is ignored, and one of register 4 is no access. -/
theorem test_register_access :
    outcome (step (loaded [] [.writeReg 1 0xFF])) = some (some [], 0, 0x00#8) ∧
    refusalOf (step (loaded [] [.writeReg 4 0])) = some .noSuchRegister ∧
    refusalOf (step (loaded [] [.writeIbuf 400 0#8])) = some .noSuchByte := by decide

/-- V22: reset after an operation. -/
theorem test_reset_step :
    after (step { after (step (loaded [0x41#8] [.writeReg 0 1])) with script := [.reset] }) =
      State.resetOf (small 413) := by decide

/-- R219: a byte written in the payload's range stays in the end state beside one that was not. -/
theorem test_end_state_keeps_written_bytes :
    (after (step { loaded [0x41#8] [.writeReg 0 0] with ilen := 2 })).endState =
      ⟨0x00#8, 0x06#8, 2, 0, [some 0x41#8, none], []⟩ := by decide

/-- R219 and log entry 26: after error `ILEN` the bytes in the buffer are in the end state, and no other is. -/
theorem test_end_state_beyond_capacity :
    (after (step { loaded [0x41#8] [.writeReg 0 1] with ilen := 3, cfg := { small 413 with ibufCap := 1 } })).endState =
      ⟨0x01#8, 0x0A#8, 3, 0, [some 0x41#8, none, none], []⟩ := by decide

/-! ### The host -/

/-- V1: the frame of 21.0 degrees. -/
theorem test_frame_21 :
    buildFrame ⟨.halfEven, .wrap, true, 2⟩ (.fraction 21 1) =
      .ok [0xA4#8, 0x82#8, 0x48#8, 0x7F#8, 0x16#8] := by decide

/-- R172: 22.5 gives 22 under `half_even` and 23 under `half_up`. -/
theorem test_round_half : roundNearest .halfEven 45 2 = 22 ∧ roundNearest .halfUp 45 2 = 23 := by decide

/-- V5, R173: -29 is E3 when wrapped and 00 when saturated. -/
theorem test_value_byte : valueByte .wrap (-29) = 0xE3#8 ∧ valueByte .saturate (-29) = 0x00#8 := by decide

/-- V3: 69.999 is accepted, 70 is rejected; C2: -30 is accepted. -/
theorem test_range :
    tempInRange true 69999 1000 = true ∧ tempInRange true 70 1 = false ∧ tempInRange true (-30) 1 = true := by
  decide

/-- V19: the code string of the 40-byte scenario, `AFXgAB4=`. -/
theorem test_base64 :
    base64 [0x00#8, 0x55#8, 0xE0#8, 0x00#8, 0x1E#8] = ['A', 'F', 'X', 'g', 'A', 'B', '4', '='] := by decide

/-- R113's examples. -/
theorem test_normalise :
    normalise ['4', '4', '9', '7', ',', '4', '4', '9', '7'] = some [4497, 4497] ∧
    normalise ['5', '8', '8', ',', ' ', '+', '1', '6', '5', '7', ';'] = some [588, 1657] := by decide

/-! ### The invariant -/

/-- The invariant holds at reset. -/
theorem reset_inv : State.reset.Inv where
  admissible := by decide
  notBusy := by decide
  reserved := by decide
  errLegal := by decide
  beforeFirst := fun _ => ⟨rfl, rfl⟩
  errorEmpty := fun h => absurd rfl h
  ilenFits := by decide
  olenFits := by decide
  ibufWf := by decide
  ibufIn := fun _ h => absurd h List.not_mem_nil
  obufExact := rfl
  decIn := by decide

/-! ### Cases that meet the hypotheses of the statements -/

theorem witness_ResetMoveRestoresResetState : (loaded [0x41#8] [.reset]).script = .reset :: [] := by decide

theorem witness_InvariantHoldsAtReset : (⟨400, 413, .middle, ⟨0x8000, 4, 0x9000, 0xA000⟩⟩ : Config).Admissible := by decide

theorem witness_InvariantKeptByEveryStep :
    State.reset.Inv ∧ step State.reset = .next State.reset :=
  ⟨reset_inv, rfl⟩

theorem witness_NoStepRaisesInv :
    statusErr (loaded v16 [.writeReg 0 6]).status ≠ 4#3 ∧
    step (loaded v16 [.writeReg 0 6]) = .next (after (step (loaded v16 [.writeReg 0 6]))) :=
  ⟨by decide, rfl⟩

/-- Both ends of the reserved words: 00 and 08, and FF. -/
theorem witness_ReservedCommandRaisesIllop :
    ((0x00#8 : Byte).toNat = 0 ∧ (loaded [] [.writeReg 0 0]).script = .writeReg 0 (0x00#8 : Byte).toNat :: []) ∧
    (8 ≤ (0x08#8 : Byte).toNat ∧ (loaded [] [.writeReg 0 8]).script = .writeReg 0 (0x08#8 : Byte).toNat :: []) ∧
    (8 ≤ (0xFF#8 : Byte).toNat ∧
      (loaded [] [.writeReg 0 255]).script = .writeReg 0 (0xFF#8 : Byte).toNat :: []) := by decide

theorem witness_StepRunsTheWrittenCommand :
    (loaded [] [.writeReg 0 7]).script = .writeReg 0 7 :: [] ∧ 7 < 256 ∧
    decodeCommand (BitVec.ofNat 8 7) = .ok .comp3 := by decide

theorem witness_StepRunsTheDecodedBlock :
    (decoding [0x40#8, 0x01#8] []).script = .replayBlock :: [] ∧
    (decoding [0x40#8, 0x01#8] []).dec.i < (decoding [0x40#8, 0x01#8] []).dec.stream.length ∧
    decodeToken (decoding [0x40#8, 0x01#8] []).cfg.extPos
      ((decoding [0x40#8, 0x01#8] []).dec.stream.drop (decoding [0x40#8, 0x01#8] []).dec.i) =
      .ok (.distS2 1#13, []) := by decide

/-- A machine whose last operation left one byte. -/
def oneByteOut (ms : List HostMove) : State :=
  { loaded [] ms with obuf := [(0, 0x41#8)], olen := 1, status := 0x02#8 }

/-- One case for each clause: the last register, the last bytes of the buffers, the widest values. -/
theorem witness_HostAccessesHaveTheirSideEffects :
    ((loaded [] [.readReg 3]).script = [.readReg 3] ∧ (loaded [] [.readReg 3]).readReg 3 = some 0) ∧
    ((oneByteOut [.readObuf 0]).script = [.readObuf 0] ∧ 0 < (oneByteOut [.readObuf 0]).cfg.obufCap ∧
      (oneByteOut [.readObuf 0]).obuf.read 0 = some 0x41#8) ∧
    ((loaded [] [.writeReg 0 7]).script = [.writeReg 0 (0x07#8 : Byte).toNat] ∧
      decodeCommand 0x07#8 = .ok .comp3) ∧
    ((loaded [] [.writeReg 2 511]).script = [.writeReg 2 511] ∧
      511 < 2 ^ (loaded [] [.writeReg 2 511]).cfg.lenW) ∧
    ((loaded [] [.writeIbuf 399 1#8]).script = [.writeIbuf 399 1#8] ∧
      399 < (loaded [] [.writeIbuf 399 1#8]).cfg.ibufCap) ∧
    ((loaded [] [.writeReg 1 255]).script = [.writeReg 1 255] ∧ 255 < 256) ∧
    ((loaded [] [.writeReg 3 511]).script = [.writeReg 3 511] ∧
      511 < 2 ^ (loaded [] [.writeReg 3 511]).cfg.lenW) ∧
    ((loaded [] [.writeObuf 412 1#8]).script = [.writeObuf 412 1#8] ∧
      412 < (loaded [] [.writeObuf 412 1#8]).cfg.obufCap) := by decide

/-- Both sides of the equivalence: a legal move that runs, and an access beyond the last byte. -/
theorem witness_OnlyForeignAccessesAreRefused :
    ((loaded [] [.writeIbuf 399 1#8]).script = [.writeIbuf 399 1#8] ∧
      refusalOf (step (loaded [] [.writeIbuf 399 1#8])) = none) ∧
    ((loaded [] [.writeIbuf 400 1#8]).script = [.writeIbuf 400 1#8] ∧
      refusalOf (step (loaded [] [.writeIbuf 400 1#8])) = some .noSuchByte) := by decide

theorem witness_OutcomeLivesUntilNextCommandOrReset :
    (oneByteOut [.writeReg 2 5]).script = .writeReg 2 5 :: [] ∧
    (HostMove.writeReg 2 5).isCommand = false ∧ HostMove.writeReg 2 5 ≠ .reset ∧
    step (oneByteOut [.writeReg 2 5]) = .next (after (step (oneByteOut [.writeReg 2 5]))) :=
  ⟨rfl, rfl, by decide, rfl⟩

/-- One byte above the capacity. -/
theorem witness_TooLongPayloadRaisesIlen :
    Instr.wave.isCommand = true ∧
    ({ loaded [] [] with ilen := 401 } : State).cfg.ibufCap < ({ loaded [] [] with ilen := 401 } : State).ilen := by
  decide

theorem witness_PayloadWithoutValueFaults :
    Instr.neg.isCommand = true ∧
    ({ loaded [0x41#8] [] with ilen := 2 } : State).ilen ≤ 400 ∧
    1 < ({ loaded [0x41#8] [] with ilen := 2 } : State).ilen ∧
    ({ loaded [0x41#8] [] with ilen := 2 } : State).ibuf.read 1 = none := by decide

theorem witness_OperationsKeepTheirInputs :
    Instr.chk.isCommand = true ∧
    exec .chk (loaded [0x41#8] []) = .next (after (exec .chk (loaded [0x41#8] []))) :=
  ⟨rfl, rfl⟩

theorem witness_StatusAfterEveryOperation :
    Instr.comp2.isCommand = true ∧
    exec .comp2 (loaded [] []) = .next (after (exec .comp2 (loaded [] []))) :=
  ⟨rfl, rfl⟩

/-- A state that differs from `loaded [0x41#8] []` in what a former operation left, beyond the payload, and in
`BASE`. -/
def otherPast : State :=
  { oneByteOut [] with
    ilen := 1, ibuf := [(0, 0x41#8), (7, 0#8)], cfg := { small 413 with base := ⟨0x8000, 4, 0x9000, 0xA000⟩ } }

theorem witness_ResultDependsOnPayloadOnly :
    Instr.neg.isCommand = true ∧
    (loaded [0x41#8] []).cfg.ibufCap = otherPast.cfg.ibufCap ∧
    (loaded [0x41#8] []).cfg.obufCap = otherPast.cfg.obufCap ∧
    (loaded [0x41#8] []).cfg.extPos = otherPast.cfg.extPos ∧ (loaded [0x41#8] []).ilen = otherPast.ilen ∧
    (∀ a, a < (loaded [0x41#8] []).ilen → (loaded [0x41#8] []).ibuf.read a = otherPast.ibuf.read a) ∧
    exec .neg (loaded [0x41#8] []) = .next (after (exec .neg (loaded [0x41#8] []))) :=
  ⟨rfl, rfl, rfl, rfl, rfl, by decide, rfl⟩

/-- Both clauses, at the boundary of the capacity. -/
theorem witness_ChkDeliversTheChecksum :
    400 < ({ loaded [] [] with ilen := 401 } : State).ilen ∧
    (loaded [0x41#8] []).ilen ≤ (loaded [0x41#8] []).cfg.ibufCap ∧
    (loaded [0x41#8] []).payload = some [0x41#8] := by decide

theorem witness_ChecksumIgnoresOrder : [0x01#8, 0x80#8].Perm [0x80#8, 0x01#8] :=
  List.Perm.swap _ _ _

theorem witness_NegComplementsEveryByte : [0x01#8, 0x80#8][1]? = some 0x80#8 := by decide

/-- Three clauses: too long, a result that exceeds the output buffer by one byte, one that just fits. -/
theorem witness_NegDeliversTheComplement :
    400 < ({ loaded [] [] with ilen := 401 } : State).ilen ∧
    ((loaded [1#8, 2#8] []).ilen ≤ 400 ∧ (loaded [1#8, 2#8] []).payload = some [1#8, 2#8] ∧
      ({ loaded [1#8, 2#8] [] with cfg := small 1 } : State).cfg.obufCap < 2) ∧
    2 ≤ ({ loaded [1#8, 2#8] [] with cfg := small 2 } : State).cfg.obufCap := by decide

theorem witness_BitsAreMostSignificantFirst : [0x01#8, 0x80#8][1]? = some 0x80#8 ∧ 7 ≤ 7 := by decide

theorem witness_SerialisationIsLittleEndian : [588#16, 1657#16][1]? = some 1657#16 := by decide

/-- Three clauses: too long, `32 * 1 + 8 = 40` against 39, and against 40. -/
theorem witness_WaveDeliversThePulseTrain :
    400 < ({ loaded [] [] with ilen := 401 } : State).ilen ∧
    ((loaded [0xA5#8] []).ilen ≤ 400 ∧ (loaded [0xA5#8] []).payload = some [0xA5#8] ∧
      39 < 32 * (loaded [0xA5#8] []).ilen + 8) ∧
    32 * (loaded [0xA5#8] []).ilen + 8 ≤ 40 := by decide

theorem witness_SpaceCarriesTheBit : [false, true][1]? = some true := by decide

theorem witness_TrainOfSixByteFrame :
    [0xA4#8, 0x82#8, 0x48#8, 0x7F#8, 0x16#8, 0x44#8].length = 6 := by decide

/-- A command and a block. -/
theorem witness_DecodeUndoesEncode :
    (Instr.comp1.WellFormed ∧ Instr.comp1.isCommand = true) ∧
    (Instr.lit (List.replicate 32 0#8)).WellFormed ∧
    (Instr.lit (List.replicate 32 0#8)).isCommand = false := by decide

theorem witness_EncodeUndoesDecode :
    decodeToken .middle [0xE0#8, 0x5B#8, 0x01#8, 0x00#8] = .ok (.distL 1#13 91#8, [0x00#8]) := by decide

/-- For each kind of first byte a stream one byte too short and one that just suffices. -/
theorem witness_FirstByteGivesBlockSize :
    decodeToken .trailing [0x01#8, 0#8] = .error .truncated ∧
    decodeToken .trailing [0x01#8, 0#8, 0#8] = .ok (.lit [0#8, 0#8], []) ∧
    decodeToken .trailing [0xDF#8] = .error .truncated ∧
    decodeToken .trailing [0xDF#8, 0#8] = .ok (.distS6 0x1F00#13, []) ∧
    decodeToken .trailing [0xE0#8, 0#8] = .error .truncated ∧
    decodeToken .trailing [0xE0#8, 0#8, 0#8] = .ok (.distL 0#13 0#8, []) := by decide

/-- The boundary operands of each clause. -/
theorem witness_FormatterLaysOutBlocks :
    emit .trailing (.lit []) = .error .inv ∧ emit .trailing (.lit (List.replicate 33 0#8)) = .error .inv ∧
    emit .trailing (.dist 2 1) = .error .inv ∧ emit .trailing (.dist 265 1) = .error .inv ∧
    emit .trailing (.dist 3 0) = .error .inv ∧ emit .trailing (.dist 3 8193) = .error .inv ∧
    emit .trailing (.dist 3 8192) = .ok [0x3F#8, 0xFF#8] ∧
    emit .trailing (.dist 264 1) = .ok [0xE0#8, 0x00#8, 0xFF#8] := by decide

theorem witness_FormatterEmitsTheRowEncoding :
    (Instr.distL 8191#13 255#8).WellFormed ∧
    tokenOf (.distL 8191#13 255#8) = some (.dist 264 8192) := by decide

theorem witness_EveryTokenHasExactlyOneRow :
    (Token.dist 8 8192).inRange = true ∧ (Token.dist 9 1).inRange = true ∧
    (Token.lit [0#8]).inRange = true := by decide

theorem witness_LiteralRunsAreCutEvery32 :
    (chunks (List.replicate 33 7#8))[1]? = some [7#8] ∧
    emitLits (List.replicate 33 7#8) = .ok (31#8 :: List.replicate 32 7#8 ++ [0#8, 7#8]) := by decide

theorem witness_EncodedLengthIsTokenCost :
    ∀ t ∈ [Token.lit [0#8], Token.dist 264 1, Token.dist 8 1], t.inRange = true := by decide

/-- The shortest and the longest literal. -/
theorem witness_LitAppendsItsBytes :
    (1 ≤ [0x41#8].length ∧ [0x41#8].length ≤ 32) ∧
    (1 ≤ (List.replicate 32 0#8).length ∧ (List.replicate 32 0#8).length ≤ 32) := by decide

/-- The distance that just reaches the first byte decoded, for the first and the last row. -/
theorem witness_DistCopiesFromItsDistance :
    (0#13).toNat + 1 ≤ (decoding [] [0x41#8]).dec.out.length ∧
    decoderAfter (exec (.distS1 0#13) (decoding [] [0x41#8])) =
      some ⟨[], 2, [0x41#8, 0x41#8, 0x41#8, 0x41#8]⟩ ∧
    decoderAfter (exec (.distL 0#13 0#8) (decoding [] [0x41#8])) =
      some ⟨[], 3, List.replicate 10 0x41#8⟩ := by decide

/-- Both clauses: a distance one beyond the output, and a literal one byte short. -/
theorem witness_DecoderFaultsOnIllegalStreams :
    (decoding [] [0x41#8]).dec.out.length < (1#13).toNat + 1 ∧
    ((decoding [0x01#8, 0x41#8] []).script = .replayBlock :: [] ∧
      (decoding [0x01#8, 0x41#8] []).dec.stream.drop (decoding [0x01#8, 0x41#8] []).dec.i =
        0x01#8 :: [0x41#8] ∧
      [0x41#8].length + 1 < 2 + (0x01#8 : Byte).toNat % 32) := by decide

theorem witness_TokensChangeOnlyTheDecoder :
    (Instr.distS1 0#13).isCommand = false ∧
    exec (.distS1 0#13) (decoding [] [0x41#8]) =
      .next (after (exec (.distS1 0#13) (decoding [] [0x41#8]))) :=
  ⟨rfl, rfl⟩

theorem witness_DecodeOfEncodeIsReplay :
    (∀ t ∈ [Token.lit [0x41#8], Token.dist 3 1], t.inRange = true) ∧
    replay [.lit [0x41#8], .dist 3 1] = some [0x41#8, 0x41#8, 0x41#8, 0x41#8] := by decide

/-- One stream for each clause. -/
theorem witness_DecoderStepsComputeDecode :
    decodeStream .trailing [0x00#8, 0x41#8, 0x20#8, 0x00#8] = .ok [0x41#8, 0x41#8, 0x41#8, 0x41#8] ∧
    decodeStream .trailing [0x00#8] = .error .trunc ∧
    decodeStream .trailing [0x20#8, 0x00#8] = .error .dist := by decide

/-- An overlapping match whose length the payload's end caps. -/
theorem witness_MatchLenIsTheLargestAgreement :
    (1 < [0x41#8, 0x41#8, 0x41#8, 0x41#8].length ∧ 1 ≤ 1 ∧ 1 ≤ 1) ∧
    matchLen [0x41#8, 0x41#8, 0x41#8, 0x41#8] 1 1 = 3 := by decide

theorem witness_FirstMatchIsTheNearestUsable :
    firstMatch [0x41#8, 0x41#8, 0x41#8, 0x41#8] 1 = some ⟨3, 1⟩ ∧
    firstMatch [0x41#8, 0x41#8, 0x41#8] 1 = none := by decide

theorem witness_BestMatchIsLongestThenNearest :
    bestMatch [0x41#8, 0x41#8, 0x41#8, 0x41#8] 2 = some ⟨2, 1⟩ ∧
    bestMatch [0x41#8, 0x41#8, 0x41#8] 0 = none := by decide

/-- Every clause of the compressor's delivery: too long, one byte too many, just fitting. -/
theorem witness_CompDeliversTheEncodedTokens :
    400 < ({ loaded [] [] with ilen := 401 } : State).ilen ∧
    ((loaded [0x41#8] []).ilen ≤ 400 ∧ (loaded [0x41#8] []).payload = some [0x41#8]) ∧
    outcome (exec .comp0 { loaded [0x41#8] [] with cfg := small 1 }) =
      some (some [], 0, 0x0E#8) ∧
    outcome (exec .comp0 { loaded [0x41#8] [] with cfg := small 2 }) =
      some (some [0x00#8, 0x41#8], 2, 0x02#8) := by decide

theorem witness_CompResultDecodesToThePayload :
    (loaded [0x41#8] []).cfg.Admissible ∧ (loaded [0x41#8] []).ilen ≤ (loaded [0x41#8] []).cfg.ibufCap ∧
    (loaded [0x41#8] []).payload = some [0x41#8] := by decide

theorem witness_LevelThreeIsOptimal :
    (∀ t ∈ [Token.lit [0x41#8], Token.dist 3 1], t.inRange = true) ∧
    replay [.lit [0x41#8], .dist 3 1] = some [0x41#8, 0x41#8, 0x41#8, 0x41#8] := by decide

theorem witness_EqualRunIsLiteralAndMatch :
    tokens 1 (List.replicate 4 0x41#8) = [.lit [0x41#8], .dist 3 1] ∧ 4 ≤ 265 := by decide

theorem witness_PipelineCompressesTheTrain :
    State.reset.cfg.Admissible ∧ (frameBytes 0x16#8).length = 5 := by decide

theorem witness_RoundingIsToANearestInteger : 0 < 2 ∧ roundNearest .halfEven (-3) 2 = -2 := by decide

/-- The bounds of the range, and the value byte at both ends of the second clause. -/
theorem witness_FrameBuilderRangeAndValue :
    buildFrame ⟨.halfEven, .wrap, true, 2⟩ (.fraction (-31) 1) = .error .inputRange ∧
    buildFrame ⟨.halfEven, .wrap, true, 2⟩ (.fraction 70 1) = .error .inputRange ∧
    buildFrame ⟨.halfUp, .saturate, true, 2⟩ (.fraction (-1) 1) =
      .ok [0xA4#8, 0x82#8, 0x48#8, 0x7F#8, 0x00#8] ∧
    buildFrame ⟨.halfUp, .saturate, true, 2⟩ (.fraction 69 1) =
      .ok [0xA4#8, 0x82#8, 0x48#8, 0x7F#8, 0x46#8] := by decide

end Sys2Proof.Tests
end

/-!
PROOFS of the family `10_state`: the values after reset (R33), the frame of the seven operations (R35), and what
their results depend on (R34).
-/
namespace Sys2Proof.Machine

/-- A buffer written from index 0 holds a value exactly below the number of its bytes. -/
theorem Memory.isSome_read_ofBytes_zero (bs : List Byte) (a : Nat) :
    ((Memory.ofBytes 0 bs).read a).isSome = decide (a < bs.length) := by
  rw [Bool.eq_iff_iff]
  simp [Memory.read_ofBytes]

/-- States that agree on `ILEN` and on `IBUF` below it have the same payload, or both have none (R21). -/
theorem State.payload_congr {s s' : State} (hlen : s.ilen = s'.ilen)
    (hbuf : ∀ a, a < s.ilen → s.ibuf.read a = s'.ibuf.read a) : s.payload = s'.payload := by
  unfold State.payload
  rw [← hlen]
  exact Memory.readRange_congr fun i hi => by simpa using hbuf i hi

/-- Settles O1: the registers by the fields of `State.resetOf`, the buffers because an empty one reads as no value
at every index. -/
theorem resetLeavesRegistersZeroAndBuffersEmpty :
    Obligations.ResetLeavesRegistersZeroAndBuffersEmpty :=
  ⟨fun _ => ⟨rfl, rfl, rfl, rfl, Memory.read_nil, Memory.read_nil⟩, rfl⟩

/-- Settles O15: an operation's next state is an error raised, which empties `OBUF`, or a result delivered, which
fills it exactly below `OLEN`; neither end writes a field but `OBUF`, `OLEN` and `STATUS`. -/
theorem operationsKeepTheirInputs : Obligations.OperationsKeepTheirInputs := by
  intro i s t hi h
  rcases exec_command_next hi h with ⟨e, rfl⟩ | ⟨bytes, rfl, -⟩
  · exact ⟨rfl, rfl, rfl, rfl, rfl, rfl, rfl, fun a => by simp⟩
  · exact ⟨rfl, rfl, rfl, rfl, rfl, rfl, rfl, Memory.isSome_read_ofBytes_zero bytes⟩

/-- Settles O17: both states pass or fail the shared start of an operation alike, with the same payload, and a
command's unit depends on the payload, `OBUF_CAP` and `EXT_BYTE_POS` alone. -/
theorem resultDependsOnPayloadOnly : Obligations.ResultDependsOnPayloadOnly := by
  intro i s1 s2 t1 hi hibuf hobuf hpos hlen hbuf h
  obtain ⟨unit, hunit, hexec⟩ := exec_command hi
  rw [hexec] at h ⊢
  rcases State.withPayload_next h with ⟨hlong, rfl⟩ | ⟨hfits, p, hp, rfl⟩
  · exact ⟨_, State.withPayload_tooLong (by omega) _, rfl, rfl, rfl⟩
  · have hp2 : s2.payload = some p := State.payload_congr hlen hbuf ▸ hp
    exact ⟨_, State.withPayload_some (by omega) hp2 _,
      hunit.depends s2 s1 p hobuf.symm hpos.symm⟩

end Sys2Proof.Machine


/-!
PROOFS of the family `30_encoding`: the seven operation codes (R72) and the reserved command words (R73, R187).
-/
namespace Sys2Proof.Machine

/-- With `CMD[7:4]` at 0 the operation code in `CMD[3:0]` is the whole command word (R71). -/
theorem toNat_low_nibble_of_high_zero {c : Byte} (h : c.extractLsb' 4 4 = 0#4) :
    (c.extractLsb' 0 4).toNat = c.toNat := by
  have hhigh : c.toNat / 16 % 16 = 0 := by
    simpa [Nat.shiftRight_eq_div_pow] using congrArg BitVec.toNat h
  have hlow : (c.extractLsb' 0 4).toNat = c.toNat % 16 := by simp
  omega

/-- The command words outside `0x01` to `0x07` are reserved (R73). -/
theorem decodeCommand_reserved {c : Byte} (hc : c.toNat = 0 ∨ 8 ≤ c.toNat) :
    decodeCommand c = .error .reserved := by
  unfold decodeCommand
  split
  · rename_i hhigh
    rw [toNat_low_nibble_of_high_zero hhigh]
    split
    case h_8 => rfl
    all_goals omega
  · rfl

/-- A byte written to `CMD` is never too wide for it: it is accepted as a command word (R25). -/
theorem hostMove_writeReg_cmd (s : State) (c : Byte) :
    hostMove s (.writeReg 0 c.toNat) = acceptCommand s c := by
  have hwidth : c.toNat < 256 := c.isLt
  simp [hostMove, writeReg, hwidth]

/-- A command word that the decoder rejects is kept in `CMD` and ends with `ILLOP` (R73, R187). -/
theorem acceptCommand_of_error {s : State} {c : Byte} {e : DecodeError} (h : decodeCommand c = .error e) :
    acceptCommand s c = .done (.next (State.raise { s with cmd := c } .illop)) := by
  simp [acceptCommand, h]

/-- Settles O6: each of the seven words decodes by evaluation. -/
theorem commandCodesSelectTheirOperations : Obligations.CommandCodesSelectTheirOperations :=
  ⟨rfl, rfl, rfl, rfl, rfl, rfl, rfl⟩

/-- Settles O7: the decoder rejects the word, so the step is the `ILLOP` raised with `CMD` written, and no buffer
is read. -/
theorem reservedCommandRaisesIllop : Obligations.ReservedCommandRaisesIllop := by
  intro s c rest hc hscript
  rw [step_of_script hscript, hostMove_writeReg_cmd, acceptCommand_of_error (decodeCommand_reserved hc),
    finish_done]
  rfl

end Sys2Proof.Machine


/-!
PROOFS of the family `40_checksum`: bit reversal (R90), the checksum function (R91) and `CHK` (R92).
-/
namespace Sys2Proof.Machine

/-- The sum in the definition of `Rev8` (R90) over the bits `0` to `n - 1` of `b` only. -/
def rev8Below (b : Byte) (n : Nat) : Byte :=
  (List.range n).foldl (fun acc i => acc + ((b >>> i) &&& 1#8) <<< (7 - i)) 0#8

/-- `Rev8` sums over all eight bits. -/
theorem rev8_eq_rev8Below (b : Byte) : rev8 b = rev8Below b 8 := rfl

/-- One more bit adds one more term. -/
theorem rev8Below_succ (b : Byte) (n : Nat) :
    rev8Below b (n + 1) = rev8Below b n + ((b >>> n) &&& 1#8) <<< (7 - n) := by
  simp [rev8Below, List.range_succ]

/-- The term of bit `i` has at most one bit set, at place `7 - i`. -/
theorem getLsbD_rev8_term (b : Byte) {i : Nat} (hi : i < 8) (j : Nat) :
    (((b >>> i) &&& 1#8) <<< (7 - i)).getLsbD j = (decide (j = 7 - i) && b.getLsbD i) := by
  rw [BitVec.getLsbD_shiftLeft, BitVec.getLsbD_and, BitVec.getLsbD_ushiftRight, BitVec.getLsbD_one]
  by_cases hj : j = 7 - i
  · subst hj
    simp [show 7 - i < 8 by omega]
  · have hoff : j < 7 - i ∨ j - (7 - i) ≠ 0 := by omega
    rcases hoff with h | h <;> simp [hj, h]

/-- The terms of the first `n` bits fill the top `n` places, in reverse order: no two of them meet, so the sum
never carries. -/
theorem getLsbD_rev8Below (b : Byte) {n j : Nat} (hn : n ≤ 8) (hj : j < 8) :
    (rev8Below b n).getLsbD j = (decide (8 ≤ n + j) && b.getLsbD (7 - j)) := by
  induction n generalizing j with
  | zero => simp [rev8Below, Nat.not_le.2 hj]
  | succ n ih =>
    have hfree : ¬8 ≤ n + (7 - n) := by omega
    have hdisjoint : rev8Below b n &&& ((b >>> n) &&& 1#8) <<< (7 - n) = 0#8 := by
      refine BitVec.eq_of_getLsbD_eq fun k hk => ?_
      rw [BitVec.getLsbD_and, ih (by omega) hk, getLsbD_rev8_term b hn]
      by_cases hkn : k = 7 - n <;> simp [hkn, hfree]
    rw [rev8Below_succ, BitVec.add_eq_or_of_and_eq_zero _ _ hdisjoint, BitVec.getLsbD_or, ih (by omega) hj,
      getLsbD_rev8_term b hn]
    by_cases hjn : j = 7 - n
    · have hfilled : 8 ≤ n + 1 + (7 - n) := by omega
      simp [hjn, hfree, hfilled, Nat.sub_sub_self (Nat.le_of_lt_succ hn)]
    · have hsame : 8 ≤ n + 1 + j ↔ 8 ≤ n + j := by omega
      simp [hjn, hsame]

/-- Bit `i` of `Rev8(b)` is bit `7 - i` of `b` (R90). -/
theorem getLsbD_rev8 (b : Byte) {i : Nat} (hi : i < 8) : (rev8 b).getLsbD i = b.getLsbD (7 - i) := by
  simp [rev8_eq_rev8Below, getLsbD_rev8Below b le_rfl hi]

/-- `Rev8` is its own inverse (R90). -/
@[simp] theorem rev8_rev8 (b : Byte) : rev8 (rev8 b) = b := by
  refine BitVec.eq_of_getLsbD_eq fun i hi => ?_
  rw [getLsbD_rev8 _ hi, getLsbD_rev8 _ (by omega), Nat.sub_sub_self (by omega)]

/-- Settles O18: the bit form from the loop's invariant, the self-inverse from the bit form; the nibble form
compares `Rev8` with a fixed table, so it is checked entry by entry over the 256 bytes. -/
theorem rev8ReversesBits : Obligations.Rev8ReversesBits :=
  ⟨fun b _ hi => getLsbD_rev8 b hi, by decide, rev8_rev8⟩

/-- Each further byte adds its reversal to the accumulator (R91). -/
theorem chkSum_concat (s : List Byte) (b : Byte) : chkSum (s ++ [b]) = chkSum s + rev8 b := by
  simp [chkSum]

/-- The 8-bit accumulator holds the sum of the reversed bytes modulo 256 (R91). -/
theorem toNat_chkSum (s : List Byte) :
    (chkSum s).toNat = (s.map fun b => (rev8 b).toNat).sum % 256 := by
  induction s using List.reverseRecOn with
  | nil => rfl
  | append_singleton _ b ih => simp [chkSum_concat, BitVec.toNat_add, ih]

/-- Settles O19: the wrapping accumulator and the sum reduced once at the end are the same number modulo 256. -/
theorem chkIsReversedNegatedSum : Obligations.ChkIsReversedNegatedSum := by
  intro s
  rw [chk, toNat_chkSum]

/-- `CHK` delivers the checksum of its payload behind the shared start of an operation (R92). -/
theorem exec_chk (s : State) : exec .chk s = s.withPayload fun p => s.deliver [chk p] := rfl

/-- Settles O20: a payload above the capacity is stopped by the shared start of an operation; any other goes to the
unit, which delivers one byte, whatever `OBUF_CAP` is. -/
theorem chkDeliversTheChecksum : Obligations.ChkDeliversTheChecksum := by
  intro s
  rw [exec_chk]
  refine ⟨fun hlong => ?_, fun p hfits hp => ?_⟩
  · rw [State.withPayload_tooLong hlong]
    rfl
  · rw [State.withPayload_some hfits hp]
    rfl

end Sys2Proof.Machine


/-!
PROOFS of the family `41_negator`: the complement of a byte sequence (R100) and `NEG` (R101).
-/
namespace Sys2Proof.Machine

/-- `Neg(s)` has the length of `s` (R100). -/
@[simp] theorem neg_length (s : List Byte) : (neg s).length = s.length := by
  simp [neg]

/-- `Neg` works on each byte by itself (R100). -/
@[simp] theorem neg_getElem? (s : List Byte) (i : Nat) : (neg s)[i]? = s[i]?.map (· ^^^ 0xFF#8) := by
  simp [neg]

/-- Flipping all eight bits is the complement (R100). -/
theorem xor_0xFF_eq_not (b : Byte) : b ^^^ 0xFF#8 = ~~~b :=
  BitVec.xor_allOnes

/-- `NEG` delivers the complement of its payload behind the shared start of an operation (R101). -/
theorem exec_neg (s : State) : exec .neg s = s.withPayload fun p => s.deliverOrOvf (neg p) := rfl

/-- Settles O23: `Neg` maps each byte by itself; its mask has all eight bits set, so the exclusive or is the
complement, and a complement is the distance to 255. -/
theorem negComplementsEveryByte : Obligations.NegComplementsEveryByte := by
  intro s
  refine ⟨neg_length s, fun i b hb => ⟨?_, xor_0xFF_eq_not b, ?_⟩⟩
  · rw [neg_getElem?, hb, Option.map_some]
  · rw [xor_0xFF_eq_not, BitVec.toNat_not]

/-- Settles O24: a payload above `IBUF_CAP` is stopped by the shared start of an operation; for any other the result
is as long as the payload, so `ILEN` against `OBUF_CAP` decides between `OVF` and delivery. -/
theorem negDeliversTheComplement : Obligations.NegDeliversTheComplement := by
  intro s
  rw [exec_neg]
  refine ⟨fun hlong => ?_, fun p hfits hp => ?_⟩
  · rw [State.withPayload_tooLong hlong]
    rfl
  · obtain ⟨hplen, -⟩ := (State.payload_eq_some_iff s p).1 hp
    have hlen : (neg p).length = s.ilen := (neg_length p).trans hplen
    rw [State.withPayload_some hfits hp]
    refine ⟨fun hover => ?_, fun hroom => ?_⟩
    · rw [State.deliverOrOvf_over (hlen ▸ hover)]
      rfl
    · rw [State.deliverOrOvf_fits (hlen ▸ hroom), State.deliver, hlen]
      rfl

end Sys2Proof.Machine


/-!
PROOFS of the family `42_waveform`: the bit string (R105), the waveform (R107), the serialisation (R108), `WAVE`
(R109) and the two-frame train (R110).
-/
namespace Sys2Proof.Machine

section FlatMap
variable {α β : Type*} {f : α → List β} {n : Nat} (hf : ∀ a, (f a).length = n)
include hf

/-- Pieces of one length `n` make `n` elements each. -/
theorem length_flatMap_of_length (l : List α) : (l.flatMap f).length = n * l.length := by
  simp [List.length_flatMap, hf, Nat.mul_comm]

/-- Of pieces of one length `n`, piece `i` stands at `n * i` and behind. -/
theorem getElem?_flatMap_of_length {l : List α} {i j : Nat} {a : α} (ha : l[i]? = some a) (hj : j < n) :
    (l.flatMap f)[n * i + j]? = (f a)[j]? := by
  induction l generalizing i with
  | nil => simp at ha
  | cons b l ih =>
    cases i with
    | zero =>
      obtain rfl : b = a := by simpa using ha
      rw [List.flatMap_cons, List.getElem?_append_left (by simpa [hf] using hj), Nat.mul_zero, Nat.zero_add]
    | succ i =>
      have hskip : n * (i + 1) + j = (f b).length + (n * i + j) := by rw [hf, Nat.mul_succ]; omega
      rw [List.flatMap_cons, hskip, List.getElem?_append_right (Nat.le_add_right _ _), Nat.add_sub_cancel_left,
        ih (by simpa using ha)]

end FlatMap

/-- A byte has eight bits (R105). -/
@[simp] theorem byteBits_length (b : Byte) : (byteBits b).length = 8 := by
  simp [byteBits]

/-- Index `j` of a byte's bits is the bit of place `7 - j` (R105). -/
theorem byteBits_getElem? (b : Byte) {j : Nat} (hj : j ≤ 7) : (byteBits b)[j]? = some (b.getLsbD (7 - j)) := by
  simp [byteBits, Nat.lt_succ_of_le hj]

/-- `Bits(s)` has the length `8 * |s|` (R105). -/
@[simp] theorem bits_length (s : List Byte) : (bits s).length = 8 * s.length :=
  length_flatMap_of_length byteBits_length s

/-- Settles O26: `Bits` strings together pieces of eight bits, each a byte's, most significant first. -/
theorem bitsAreMostSignificantFirst : Obligations.BitsAreMostSignificantFirst := by
  intro s
  refine ⟨bits_length s, fun i j b hb hj => ?_⟩
  rw [bits, getElem?_flatMap_of_length byteBits_length hb (by omega), byteBits_getElem? b hj]

/-- `E(0) = zero` (R107). -/
@[simp] theorem pulsesOfBit_false (t : Timing) : pulsesOfBit t false = t.zero := rfl

/-- `E(1) = one` (R107). -/
@[simp] theorem pulsesOfBit_true (t : Timing) : pulsesOfBit t true = t.one := rfl

/-- The lists of a bit string's bits have the durations of a `zero` for each 0 and of a `one` for each 1 (R107). -/
theorem length_flatMap_pulsesOfBit (t : Timing) (bs : List Bool) :
    (bs.flatMap (pulsesOfBit t)).length = bs.count false * t.zero.length + bs.count true * t.one.length := by
  induction bs with
  | nil => simp
  | cons b bs ih =>
    rw [List.flatMap_cons, List.length_append, ih]
    cases b with
    | false =>
      rw [pulsesOfBit_false, List.count_cons_self, List.count_cons_of_ne Bool.false_ne_true, Nat.succ_mul]
      omega
    | true =>
      rw [pulsesOfBit_true, List.count_cons_self, List.count_cons_of_ne Bool.false_ne_true.symm, Nat.succ_mul]
      omega

/-- Settles O27: the form holds by the definition of `Wave`, its length by counting the lists bit by bit. -/
theorem waveIsHeaderBitsGap : Obligations.WaveIsHeaderBitsGap := by
  intro t bs
  refine ⟨by rw [wave, List.flatMap_def]; rfl, ?_⟩
  rw [wave, List.length_append, List.length_append, length_flatMap_pulsesOfBit]
  omega

/-- One duration is two bytes (R52). -/
@[simp] theorem serPulse_length (w : Pulse) : (serPulse w).length = 2 := rfl

/-- The bytes of a duration are its remainder and its quotient by 256 (R52, R108). -/
theorem serPulse_eq (w : Pulse) :
    serPulse w = [BitVec.ofNat 8 (w.toNat % 256), BitVec.ofNat 8 (w.toNat / 256)] := by
  have hlow : w.extractLsb' 0 8 = BitVec.ofNat 8 (w.toNat % 256) := BitVec.eq_of_toNat_eq (by simp)
  have hhigh : w.extractLsb' 8 8 = BitVec.ofNat 8 (w.toNat / 256) :=
    BitVec.eq_of_toNat_eq (by simp [Nat.shiftRight_eq_div_pow])
  rw [serPulse, hlow, hhigh]

/-- `Ser16(t)` has the length `2 * |t|` (R108). -/
@[simp] theorem ser16_length (t : List Pulse) : (ser16 t).length = 2 * t.length :=
  length_flatMap_of_length serPulse_length t

/-- `Ser16` distributes over `++` (R110). -/
theorem ser16_append (t u : List Pulse) : ser16 (t ++ u) = ser16 t ++ ser16 u :=
  List.flatMap_append

/-- Settles O28: `Ser16` strings together pieces of two bytes, each the low and the high byte of a duration. -/
theorem serialisationIsLittleEndian : Obligations.SerialisationIsLittleEndian := by
  intro t
  refine ⟨ser16_length t, fun i w hw => ⟨?_, ?_⟩⟩
  · rw [ser16, ← Nat.add_zero (2 * i), getElem?_flatMap_of_length serPulse_length hw (by omega), serPulse_eq]
    rfl
  · rw [ser16, getElem?_flatMap_of_length serPulse_length hw (by omega), serPulse_eq]
    rfl

/-- Both bits take two durations in the timing table (R106). -/
theorem pulsesOfBit_timingTable_length (b : Bool) : (pulsesOfBit timingTable b).length = 2 := by
  cases b <;> rfl

/-- With the timing table a waveform has two durations for the header, for each bit and for the gap (R106, R107). -/
@[simp] theorem wave_timingTable_length (bs : List Bool) : (wave timingTable bs).length = 2 * bs.length + 4 := by
  have hhdr : timingTable.hdr.length = 2 := rfl
  have hgap : timingTable.gap.length = 2 := rfl
  rw [wave, List.length_append, List.length_append,
    length_flatMap_of_length pulsesOfBit_timingTable_length bs, hhdr, hgap]
  omega

/-- The serialised waveform of `n` bytes has `32 * n + 8` bytes (R109). -/
theorem length_ser16_wave_bits (p : List Byte) :
    (ser16 (wave timingTable (bits p))).length = 32 * p.length + 8 := by
  rw [ser16_length, wave_timingTable_length, bits_length]
  omega

/-- `WAVE` delivers the serialised waveform of its payload's bits behind the shared start of an operation (R109). -/
theorem exec_wave (s : State) :
    exec .wave s = s.withPayload fun p => s.deliverOrOvf (ser16 (wave timingTable (bits p))) := rfl

/-- Settles O29: a payload above `IBUF_CAP` is stopped by the shared start of an operation; for any other the result
has `32 * ILEN + 8` bytes, so that number against `OBUF_CAP` decides between `OVF` and delivery. -/
theorem waveDeliversThePulseTrain : Obligations.WaveDeliversThePulseTrain := by
  intro s
  rw [exec_wave]
  refine ⟨fun hlong => ?_, fun p hfits hp => ?_⟩
  · rw [State.withPayload_tooLong hlong]
    rfl
  · obtain ⟨hplen, -⟩ := (State.payload_eq_some_iff s p).1 hp
    have hlen : (ser16 (wave timingTable (bits p))).length = 32 * s.ilen + 8 := by
      rw [length_ser16_wave_bits, hplen]
    rw [State.withPayload_some hfits hp]
    refine ⟨fun hover => ?_, fun hroom => ?_⟩
    · rw [State.deliverOrOvf_over (hlen ▸ hover)]
      rfl
    · rw [State.deliverOrOvf_fits (hlen ▸ hroom), State.deliver, hlen]
      rfl

/-- The train of `n` bytes has the durations of two waveforms of `8 * n` bits (R110). -/
theorem train_timingTable_length (f : List Byte) : (train timingTable f).length = 32 * f.length + 8 := by
  rw [train, List.length_append, wave_timingTable_length, wave_timingTable_length, bits_length, bits_length,
    neg_length]
  omega

/-- Settles O31: the complement of a frame is as long as the frame, so both halves count alike, and `Ser16`
distributes over the two. -/
theorem trainOfSixByteFrame : Obligations.TrainOfSixByteFrame := by
  intro f hf
  have hlen : (train timingTable f).length = 200 := by rw [train_timingTable_length, hf]
  exact ⟨rfl, hlen, by rw [ser16_length, hlen], ser16_append _ _⟩

end Sys2Proof.Machine


/-!
PROOFS of the family `43_block_formatter`: the blocks of literals and matches (R120, R122) and the cutting of a
literal run (R121).
-/
namespace Sys2Proof.Machine

/-- The block FMT lays out for a literal: its length minus 1 and its bytes (R120). -/
def litBlock (bytes : List Byte) : List Byte := BitVec.ofNat 8 (bytes.length - 1) :: bytes

/-- A literal's block is one byte longer than the literal (R120). -/
theorem litBlock_length (bytes : List Byte) : (litBlock bytes).length = bytes.length + 1 := rfl

/-- A literal of 1 to 32 bytes is laid out as its block (R120). -/
theorem emitLit_of_length {bytes : List Byte} (hmin : 1 ≤ bytes.length) (hmax : bytes.length ≤ Config.maxLit) :
    emitLit bytes = .ok (litBlock bytes) :=
  if_neg (by omega)

/-- The bit fields of a match block's first byte in arithmetic: `l` stands above the five high bits of the 13-bit
field `d` (R122). -/
theorem shiftLeft_or_shiftRight_eq (l : Nat) {d : Nat} (hd : d < 8192) :
    (l <<< 5) ||| (d >>> 8) = 32 * l + d / 256 := by
  rw [Nat.shiftRight_eq_div_pow,
    ← Nat.shiftLeft_add_eq_or_of_lt (show d / 2 ^ 8 < 2 ^ 5 by omega), Nat.shiftLeft_eq]
  omega

/-- The low byte of a match block's distance field in arithmetic (R122). -/
theorem and_0xFF_eq_mod (d : Nat) : d &&& 0xFF = d % 256 :=
  Nat.and_two_pow_sub_one_eq_mod d 8

/-- A match of 3 to 8 bytes takes the short form, its length minus 2 in the first byte (R122). -/
theorem emitDist_short (pos : ExtBytePos) {len dist : Nat} (hmin : 3 ≤ len) (hmax : len ≤ 8) (hd : 1 ≤ dist)
    (hw : dist ≤ 8192) :
    emitDist pos len dist =
      .ok [BitVec.ofNat 8 (32 * (len - 2) + (dist - 1) / 256), BitVec.ofNat 8 ((dist - 1) % 256)] := by
  have hrange : ¬ (len < 3 ∨ 264 < len ∨ dist < 1 ∨ 8192 < dist) := by omega
  have hshort : ¬ len - 2 ≥ 7 := by omega
  rw [emitDist, if_neg hrange, ← shiftLeft_or_shiftRight_eq _ (by omega), ← and_0xFF_eq_mod]
  exact if_neg hshort

/-- A match of 9 to 264 bytes takes the long form: 7 in the first byte's length field, and its length minus 9 in the
extension byte, which stands where `EXT_BYTE_POS` says (R122). -/
theorem emitDist_long (pos : ExtBytePos) {len dist : Nat} (hmin : 9 ≤ len) (hmax : len ≤ 264) (hd : 1 ≤ dist)
    (hw : dist ≤ 8192) :
    emitDist pos len dist = .ok
      (match pos with
      | .trailing =>
        [BitVec.ofNat 8 (224 + (dist - 1) / 256), BitVec.ofNat 8 ((dist - 1) % 256), BitVec.ofNat 8 (len - 9)]
      | .middle =>
        [BitVec.ofNat 8 (224 + (dist - 1) / 256), BitVec.ofNat 8 (len - 9),
          BitVec.ofNat 8 ((dist - 1) % 256)]) := by
  have hrange : ¬ (len < 3 ∨ 264 < len ∨ dist < 1 ∨ 8192 < dist) := by omega
  have hlong : len - 2 ≥ 7 := by omega
  have hext : len - 9 = len - 2 - 7 := by omega
  have hfirst : 224 + (dist - 1) / 256 = (7 <<< 5) ||| ((dist - 1) >>> 8) :=
    (shiftLeft_or_shiftRight_eq 7 (by omega)).symm
  rw [emitDist, if_neg hrange, hext, hfirst, ← and_0xFF_eq_mod]
  cases pos <;> exact if_pos hlong

/-- Settles O36: the contract is the guard of `emitLit` and `emitDist`; within it the bit operations on the fields
are the arithmetic of the statement, and the length decides between the two forms of a match block. -/
theorem formatterLaysOutBlocks : Obligations.FormatterLaysOutBlocks := by
  intro pos
  exact ⟨fun bytes => ⟨fun hout => if_pos hout, emitLit_of_length⟩, fun len dist =>
    ⟨fun hout => if_pos hout, emitDist_short pos, emitDist_long pos⟩⟩

/-- A literal run has a piece for every 32 bytes and one for the remainder (R121). -/
theorem chunks_length (bytes : List Byte) : (chunks bytes).length = Config.ceil32 bytes.length := by
  induction bytes using chunks_induction with
  | nil => rfl
  | step b h ih =>
    have hpos := List.length_pos_of_ne_nil h
    rw [chunks_of_ne_nil h, List.length_cons, ih, List.length_drop]
    simp only [Config.ceil32, Config.maxLit]
    omega

/-- Piece `q` of a literal run begins at byte `32 * q` (R121). -/
theorem chunks_getElem? {bytes c : List Byte} {q : Nat} (hc : (chunks bytes)[q]? = some c) :
    c = (bytes.drop (Config.maxLit * q)).take Config.maxLit := by
  induction bytes using chunks_induction generalizing q with
  | nil => simp at hc
  | step b h ih =>
    rw [chunks_of_ne_nil h] at hc
    cases q with
    | zero => simpa using hc.symm
    | succ q => rw [ih hc, List.drop_drop, Nat.mul_succ, Nat.add_comm]

/-- FMT accepts every piece of a literal run (R121). -/
theorem map_emitLit_chunks (bytes : List Byte) :
    (chunks bytes).map emitLit = ((chunks bytes).map litBlock).map .ok := by
  rw [List.map_map]
  refine List.map_congr_left fun c hc => ?_
  obtain ⟨hmin, hmax⟩ := length_of_mem_chunks bytes c hc
  exact emitLit_of_length hmin hmax

/-- Literals of 1 to 32 bytes are encoded as their blocks in order, wherever the extension byte stands (R124). -/
theorem encodeTokens_map_lit (pos : ExtBytePos) {cs : List (List Byte)}
    (hcs : ∀ c ∈ cs, 1 ≤ c.length ∧ c.length ≤ Config.maxLit) :
    encodeTokens pos (cs.map .lit) = .ok (cs.map litBlock).flatten := by
  induction cs with
  | nil => rfl
  | cons c cs ih =>
    obtain ⟨⟨hmin, hmax⟩, hrest⟩ := List.forall_mem_cons.1 hcs
    have hc : emit pos (.lit c) = .ok (litBlock c) := emitLit_of_length hmin hmax
    simp [encodeTokens, hc, ih hrest]

/-- The blocks of literals add one byte a literal to their bytes (R124). -/
theorem length_flatten_map_litBlock (cs : List (List Byte)) :
    (cs.map litBlock).flatten.length = cs.flatten.length + cs.length := by
  induction cs with
  | nil => rfl
  | cons c cs ih =>
    simp only [List.map_cons, List.flatten_cons, List.length_append, litBlock_length, ih, List.length_cons]
    omega

/-- Settles O39: the pieces are counted and placed by induction along the cutting, each has 1 to 32 bytes and so
a block of its own, and a block is one byte longer than its piece. -/
theorem literalRunsAreCutEvery32 : Obligations.LiteralRunsAreCutEvery32 := by
  intro bytes
  refine ⟨chunks_flatten bytes, chunks_length bytes, fun q c hc => chunks_getElem? hc,
    (chunks bytes).map litBlock, map_emitLit_chunks bytes,
    encodeTokens_map_lit .trailing (length_of_mem_chunks bytes), ?_⟩
  rw [length_flatten_map_litBlock, chunks_flatten, chunks_length]

end Sys2Proof.Machine


/-!
PROOFS of the family `44_compressor`: the match search (R141, R143, R144), the tokens of each level (R145 to R153),
and `COMP.0` to `COMP.3` (R140).
-/
namespace Sys2Proof.Machine

/-! ### The match search -/

/-- A match ends within the payload and is no longer than the longest match block (R141). -/
theorem matchLen_le (p : List Byte) (pos D : Nat) : matchLen p pos D ≤ min Config.maxMatch (p.length - pos) :=
  runLength_le _ _ _

/-- The bytes of a match equal those `D` places earlier (R141). -/
theorem getElem?_of_lt_matchLen {p : List Byte} {pos D j : Nat} (hj : j < matchLen p pos D) :
    p[pos + j]? = p[pos - D + j]? := by
  simpa using runLength_agree _ _ _ hj

/-- A match goes on as long as the bytes agree (R141). -/
theorem le_matchLen {p : List Byte} {pos D k : Nat} (hk : k ≤ min Config.maxMatch (p.length - pos))
    (hagree : ∀ j, j < k → p[pos + j]? = p[pos - D + j]?) : k ≤ matchLen p pos D :=
  le_runLength hk (by rw [List.length_drop]; omega) (by rw [List.length_drop]; omega) (by simpa using hagree)

/-- Settles O47: the three clauses are the cap, the soundness and the maximality of a run, read at the two offsets. -/
theorem matchLenIsTheLargestAgreement : Obligations.MatchLenIsTheLargestAgreement := by
  intro p pos D _ _ _
  exact ⟨matchLen_le p pos D, fun _ => getElem?_of_lt_matchLen, fun _ => le_matchLen⟩

/-- `FirstMatch` searches the candidates for the first usable distance and takes the match there (R143). -/
theorem firstMatch_eq (p : List Byte) (pos : Nat) :
    firstMatch p pos = ((candidates pos).find? fun D => decide (Config.minMatch ≤ matchLen p pos D)).map
      fun D => ⟨matchLen p pos D, D⟩ := by
  rw [← List.findSome?_guard, List.map_findSome?, firstMatch]
  congr 1
  funext D
  by_cases h : Config.minMatch ≤ matchLen p pos D
  · simp only [if_pos h, Function.comp, Option.guard, decide_eq_true h, if_true, Option.map_some]
  · simp only [if_neg h, Function.comp, Option.guard, decide_eq_false h, Bool.false_eq_true, if_false,
      Option.map_none]

/-- What `FirstMatch` finds: the smallest candidate whose match reaches length 3 (R143). -/
theorem firstMatch_eq_some_iff (p : List Byte) (pos : Nat) (m : Match) :
    firstMatch p pos = some m ↔
      1 ≤ m.dist ∧ m.dist ≤ min pos 8192 ∧ m.len = matchLen p pos m.dist ∧ 3 ≤ m.len ∧
        ∀ D, 1 ≤ D → D < m.dist → matchLen p pos D < 3 := by
  obtain ⟨len, dist⟩ := m
  simp only [firstMatch_eq, candidates, Config.window, Option.map_eq_some_iff, List.find?_range'_eq_some,
    List.mem_range'_1, decide_eq_true_eq, Match.mk.injEq, Bool.not_eq_true', decide_eq_false_iff_not, Nat.not_le]
  constructor
  · rintro ⟨D, ⟨h3, ⟨hpos, hcap⟩, hnear⟩, rfl, rfl⟩
    exact ⟨hpos, by omega, rfl, h3, hnear⟩
  · rintro ⟨hpos, hcap, rfl, h3, hnear⟩
    exact ⟨dist, ⟨h3, ⟨hpos, by omega⟩, hnear⟩, rfl, rfl⟩

/-- `FirstMatch` finds nothing exactly when no candidate's match reaches length 3 (R143). -/
theorem firstMatch_eq_none_iff (p : List Byte) (pos : Nat) :
    firstMatch p pos = none ↔ ∀ D, 1 ≤ D → D ≤ min pos 8192 → matchLen p pos D < 3 := by
  simp only [firstMatch_eq, candidates, Config.window, Option.map_eq_none_iff, List.find?_range'_eq_none,
    Bool.not_eq_true', decide_eq_false_iff_not, Nat.not_le]
  exact forall₂_congr fun D _ => imp_congr_left (by omega)

/-- Settles O48: `FirstMatch` is a search of the rising candidates, so it finds the first usable one, or none. -/
theorem firstMatchIsTheNearestUsable : Obligations.FirstMatchIsTheNearestUsable :=
  fun p pos => ⟨firstMatch_eq_some_iff p pos, firstMatch_eq_none_iff p pos⟩

/-- `m` is the longest match at `pos` over the distances `1 .. n`, the nearest of that length (R144). -/
structure IsBestUpTo (p : List Byte) (pos n : Nat) (m : Match) : Prop where
  pos_dist : 1 ≤ m.dist
  dist_le : m.dist ≤ n
  len_eq : m.len = matchLen p pos m.dist
  longest : ∀ D, 1 ≤ D → D ≤ n → matchLen p pos D ≤ m.len
  nearest : ∀ D, 1 ≤ D → D < m.dist → matchLen p pos D < m.len

/-- There is one best match at most. -/
theorem IsBestUpTo.unique {p : List Byte} {pos n : Nat} {m m' : Match} (h : IsBestUpTo p pos n m)
    (h' : IsBestUpTo p pos n m') : m = m' := by
  have hlen : m.len = m'.len := Nat.le_antisymm
    (h.len_eq ▸ h'.longest _ h.pos_dist h.dist_le) (h'.len_eq ▸ h.longest _ h'.pos_dist h'.dist_le)
  have hdist : m.dist = m'.dist := by
    rcases Nat.lt_trichotomy m.dist m'.dist with hlt | heq | hgt
    · have := h'.nearest _ h.pos_dist hlt
      have := h.len_eq
      omega
    · exact heq
    · have := h.nearest _ h'.pos_dist hgt
      have := h'.len_eq
      omega
  cases m
  cases m'
  simp_all

/-- One more distance: the best match so far stays, unless the new one is longer (R144). -/
theorem IsBestUpTo.longer_next {p : List Byte} {pos n : Nat} {m : Match} (h : IsBestUpTo p pos n m) :
    ∃ m', longer (some m) ⟨matchLen p pos (n + 1), n + 1⟩ = some m' ∧ IsBestUpTo p pos (n + 1) m' := by
  obtain ⟨hpos, hcap, hlen, hlongest, hnearest⟩ := h
  have hsplit : ∀ D, D ≤ n + 1 → D ≤ n ∨ D = n + 1 := fun D hD => by omega
  by_cases hlt : m.len < matchLen p pos (n + 1)
  · refine ⟨_, if_pos hlt, Nat.le_add_left 1 n, le_rfl, rfl, fun D h1 hD => ?_, fun D h1 hD => ?_⟩
    · rcases hsplit D hD with hn | rfl
      · exact (hlongest D h1 hn).trans hlt.le
      · exact le_rfl
    · exact (hlongest D h1 (Nat.le_of_lt_succ hD)).trans_lt hlt
  · refine ⟨_, if_neg hlt, hpos, hcap.trans (Nat.le_succ n), hlen, fun D h1 hD => ?_, hnearest⟩
    rcases hsplit D hD with hn | rfl
    · exact hlongest D h1 hn
    · exact Nat.not_lt.1 hlt

/-- The fold of `BestMatch` over the distances `1 .. n + 1` ends with their best match (R144). -/
theorem foldl_longer_range' (p : List Byte) (pos n : Nat) :
    ∃ m, (List.range' 1 (n + 1)).foldl (fun best D => longer best ⟨matchLen p pos D, D⟩) none = some m ∧
      IsBestUpTo p pos (n + 1) m := by
  induction n with
  | zero =>
    refine ⟨_, rfl, le_rfl, le_rfl, rfl, fun D h1 hD => ?_, fun D h1 hD => absurd hD (Nat.not_lt.2 h1)⟩
    rw [Nat.le_antisymm hD h1]
  | succ n ih =>
    obtain ⟨m, hm, hbest⟩ := ih
    rw [List.range'_1_concat, List.foldl_concat, hm, Nat.add_comm 1]
    exact hbest.longer_next

/-- With a byte before it, a position has a best match (R144). -/
theorem exists_bestMatch (p : List Byte) {pos : Nat} (hpos : pos ≠ 0) :
    ∃ m, bestMatch p pos = some m ∧ IsBestUpTo p pos (min pos 8192) m := by
  obtain ⟨n, hn⟩ : ∃ n, min pos 8192 = n + 1 := Nat.exists_eq_succ_of_ne_zero (by omega)
  rw [bestMatch, candidates, Config.window, hn]
  exact foldl_longer_range' p pos n

/-- `BestMatch` finds nothing only where there is no candidate (R144). -/
theorem bestMatch_eq_none_iff (p : List Byte) (pos : Nat) : bestMatch p pos = none ↔ pos = 0 := by
  refine ⟨fun h => ?_, fun h => by rw [h]; rfl⟩
  by_contra hpos
  obtain ⟨m, hm, -⟩ := exists_bestMatch p hpos
  simp [hm] at h

/-- What `BestMatch` finds: the best match over the candidates (R144). -/
theorem bestMatch_eq_some_iff (p : List Byte) (pos : Nat) (m : Match) :
    bestMatch p pos = some m ↔ IsBestUpTo p pos (min pos 8192) m := by
  by_cases hpos : pos = 0
  · subst hpos
    refine ⟨fun h => (by cases h), fun h => ?_⟩
    have := h.pos_dist
    have := h.dist_le
    omega
  · obtain ⟨b, hb, hbest⟩ := exists_bestMatch p hpos
    rw [hb, Option.some.injEq]
    exact ⟨fun h => h ▸ hbest, hbest.unique⟩

/-- `FirstMatch` finds a match exactly where the longest match is usable (R143, R144). -/
theorem firstMatch_ne_none_iff (p : List Byte) (pos : Nat) :
    firstMatch p pos ≠ none ↔ ∃ m, bestMatch p pos = some m ∧ 3 ≤ m.len := by
  rw [Ne, firstMatch_eq_none_iff]
  push Not
  constructor
  · rintro ⟨D, h1, hD, h3⟩
    obtain ⟨m, hm, hbest⟩ := exists_bestMatch p (pos := pos) (by omega)
    exact ⟨m, hm, h3.trans (hbest.longest D h1 hD)⟩
  · rintro ⟨m, hm, h3⟩
    have hbest := (bestMatch_eq_some_iff p pos m).1 hm
    exact ⟨m.dist, hbest.pos_dist, hbest.dist_le, hbest.len_eq ▸ h3⟩

/-- Settles O49: the fold keeps the best match of the distances seen, which is unique; it is usable exactly when
some candidate is. -/
theorem bestMatchIsLongestThenNearest : Obligations.BestMatchIsLongestThenNearest := by
  intro p pos
  refine ⟨fun m => (bestMatch_eq_some_iff p pos m).trans ?_, bestMatch_eq_none_iff p pos,
    firstMatch_ne_none_iff p pos⟩
  exact ⟨fun ⟨hpos, hcap, hlen, hlongest, hnearest⟩ => ⟨hpos, hcap, hlen, hlongest, hnearest⟩,
    fun ⟨hpos, hcap, hlen, hlongest, hnearest⟩ => ⟨hpos, hcap, hlen, hlongest, hnearest⟩⟩

/-! ### The size of a token sequence -/

/-- FMT lays out every token within its contract, in a block of the token's size (R120, R122, R124). -/
theorem emit_of_inRange (pos : ExtBytePos) {t : Token} (ht : t.inRange = true) :
    ∃ block, emit pos t = .ok block ∧ block.length = t.cost := by
  cases t with
  | lit bytes =>
    simp only [Token.inRange, Bool.and_eq_true, decide_eq_true_eq] at ht
    obtain ⟨hmin, hmax⟩ := ht
    exact ⟨litBlock bytes, emitLit_of_length hmin hmax, Nat.add_comm _ _⟩
  | dist len dist =>
    simp only [Token.inRange, Bool.and_eq_true, decide_eq_true_eq] at ht
    obtain ⟨⟨⟨hmin, hmax⟩, hd⟩, hw⟩ := ht
    by_cases hshort : len < 9
    · exact ⟨_, emitDist_short pos hmin (Nat.le_of_lt_succ hshort) hd hw, (if_pos hshort).symm⟩
    · refine ⟨_, emitDist_long pos (Nat.not_lt.1 hshort) hmax hd hw, ?_⟩
      cases pos <;> exact (if_neg hshort).symm

/-- Tokens within FMT's contract have an encoding, whose length is the sum of their sizes (R124). -/
theorem encodeTokens_of_inRange (pos : ExtBytePos) {ts : List Token} (hts : ∀ t ∈ ts, t.inRange = true) :
    ∃ stream, encodeTokens pos ts = .ok stream ∧ stream.length = (ts.map Token.cost).sum := by
  induction ts with
  | nil => exact ⟨[], rfl, rfl⟩
  | cons t ts ih =>
    obtain ⟨ht, hrest⟩ := List.forall_mem_cons.1 hts
    obtain ⟨block, hblock, hcost⟩ := emit_of_inRange pos ht
    obtain ⟨blocks, hblocks, hsum⟩ := ih hrest
    exact ⟨block ++ blocks, by simp only [encodeTokens, hblock, hblocks], by simp [hcost, hsum]⟩

/-- A literal run takes its bytes and one byte for each piece (R121, R145). -/
theorem sum_cost_lits (bytes : List Byte) :
    ((lits bytes).map Token.cost).sum = bytes.length + Config.ceil32 bytes.length := by
  obtain ⟨stream, hstream, hlen⟩ := encodeTokens_of_inRange .trailing (lits_inRange bytes)
  rw [lits, encodeTokens_map_lit .trailing (length_of_mem_chunks bytes), Except.ok.injEq] at hstream
  rw [← hlen, ← hstream, length_flatten_map_litBlock, chunks_flatten, chunks_length]

/-- `P[i..j)` has `j - i` bytes where the payload has `j` (R6). -/
theorem length_slice {p : List Byte} {i j : Nat} (hj : j ≤ p.length) : (slice p i j).length = j - i := by
  simp only [slice, List.length_take, List.length_drop]
  omega

/-! ### The greedy levels -/

/-- `m` is a match of the payload at `pos`: a candidate distance with its full match length (R142, R143). -/
structure IsMatchAt (p : List Byte) (pos : Nat) (m : Match) : Prop where
  pos_dist : 1 ≤ m.dist
  dist_le : m.dist ≤ min pos 8192
  len_eq : m.len = matchLen p pos m.dist

/-- What `FirstMatch` finds is a match. -/
theorem isMatchAt_of_firstMatch {p : List Byte} {pos : Nat} {m : Match} (h : firstMatch p pos = some m) :
    IsMatchAt p pos m := by
  obtain ⟨hpos, hcap, hlen, -, -⟩ := (firstMatch_eq_some_iff p pos m).1 h
  exact ⟨hpos, hcap, hlen⟩

/-- What `BestMatch` finds is a match. -/
theorem isMatchAt_of_bestMatch {p : List Byte} {pos : Nat} {m : Match} (h : bestMatch p pos = some m) :
    IsMatchAt p pos m := by
  have hbest := (bestMatch_eq_some_iff p pos m).1 h
  exact ⟨hbest.pos_dist, hbest.dist_le, hbest.len_eq⟩

/-- A match is no longer than the longest match block, and ends within the payload (R141). -/
theorem IsMatchAt.len_le {p : List Byte} {pos : Nat} {m : Match} (h : IsMatchAt p pos m) :
    m.len ≤ min 264 (p.length - pos) :=
  h.len_eq ▸ matchLen_le p pos m.dist

/-- A usable part of a match is within FMT's contract (R156). -/
theorem IsMatchAt.inRange {p : List Byte} {pos l : Nat} {m : Match} (h : IsMatchAt p pos m) (hmin : 3 ≤ l)
    (hl : l ≤ m.len) : (Token.dist l m.dist).inRange = true := by
  have hlen := h.len_le
  obtain ⟨hpos, hcap, -⟩ := h
  simp only [Token.inRange, Bool.and_eq_true, decide_eq_true_eq, Config.minMatch, Config.maxMatch, Config.window]
  omega

/-- A usable match block is smaller than the bytes it stands for (R124). -/
theorem Token.cost_dist_lt {len dist : Nat} (hmin : 3 ≤ len) : (Token.dist len dist).cost < len := by
  simp only [Token.cost]
  split <;> omega

/-- A proof about the tokens of the greedy loop goes from the payload's end back to its start: the literal run that
ends it, a position without a usable match, and a match taken after the pending literals (R146). -/
theorem greedy_induction {p : List Byte} {select : List Byte → Nat → Option Match}
    (hselect : ∀ pos m, select p pos = some m → IsMatchAt p pos m)
    {motive : (pos litStart : Nat) → List Token → Prop}
    (finish : ∀ litStart, litStart ≤ p.length →
      motive p.length litStart (lits (slice p litStart p.length)))
    (skip : ∀ pos litStart ts, litStart ≤ pos → pos < p.length → motive (pos + 1) litStart ts →
      motive pos litStart ts)
    (take : ∀ pos litStart m ts, litStart ≤ pos → pos < p.length → IsMatchAt p pos m → 3 ≤ m.len →
      motive (pos + m.len) (pos + m.len) ts →
      motive pos litStart (lits (slice p litStart pos) ++ .dist m.len m.dist :: ts)) :
    motive 0 0 (greedy p select) := by
  suffices ∀ fuel pos litStart, litStart ≤ pos → pos ≤ p.length → p.length ≤ pos + fuel →
      motive pos litStart (greedyLoop (select p) p fuel pos litStart) from
    this p.length 0 0 le_rfl (Nat.zero_le _) (Nat.zero_add _).ge
  intro fuel
  induction fuel with
  | zero =>
    intro pos litStart hlit hpos hfuel
    obtain rfl : pos = p.length := by omega
    exact finish litStart hlit
  | succ fuel ih =>
    intro pos litStart hlit hpos hfuel
    rw [greedyLoop]
    split
    · next hlt =>
      cases hm : usable (select p pos) with
      | none => exact skip pos litStart _ hlit hlt (ih _ _ (by omega) hlt (by omega))
      | some m =>
        obtain ⟨hsel, h3⟩ := (usable_eq_some_iff _ m).1 hm
        have hmatch := hselect pos m hsel
        have hlen := hmatch.len_le
        simp only [Config.minMatch] at h3
        exact take pos litStart m _ hlit hlt hmatch h3 (ih _ _ le_rfl (by omega) (by omega))
    · next hge =>
      obtain rfl : pos = p.length := by omega
      exact finish litStart hlit

/-- The greedy loop's tokens are within FMT's contract (R156). -/
theorem greedy_inRange {p : List Byte} {select : List Byte → Nat → Option Match}
    (hselect : ∀ pos m, select p pos = some m → IsMatchAt p pos m) :
    ∀ t ∈ greedy p select, t.inRange = true := by
  refine greedy_induction (motive := fun _ _ ts => ∀ t ∈ ts, t.inRange = true) hselect ?finish ?skip ?take
  case finish => exact fun _ _ => lits_inRange _
  case skip => exact fun _ _ _ _ _ ih => ih
  case take =>
    intro pos litStart m ts _ _ hm h3 ih
    exact List.forall_mem_append.2 ⟨lits_inRange _, List.forall_mem_cons.2 ⟨hm.inRange h3 le_rfl, ih⟩⟩

/-- The greedy loop's tokens take no more than a literal run of the payload: a match saves the byte that cutting the
run in two may cost (R155). -/
theorem sum_cost_greedy_le {p : List Byte} {select : List Byte → Nat → Option Match}
    (hselect : ∀ pos m, select p pos = some m → IsMatchAt p pos m) :
    ((greedy p select).map Token.cost).sum ≤ p.length + Config.ceil32 p.length := by
  refine greedy_induction
    (motive := fun _ litStart ts =>
      (ts.map Token.cost).sum ≤ (p.length - litStart) + Config.ceil32 (p.length - litStart))
    hselect ?finish ?skip ?take
  case finish =>
    intro litStart _
    rw [sum_cost_lits, length_slice le_rfl]
  case skip => exact fun _ _ _ _ _ ih => ih
  case take =>
    intro pos litStart m ts hlit hpos hm h3 ih
    have hlen := hm.len_le
    have hcost := Token.cost_dist_lt (dist := m.dist) h3
    rw [List.map_append, List.sum_append, sum_cost_lits, length_slice hpos.le, List.map_cons, List.sum_cons]
    simp only [Config.ceil32] at ih ⊢
    omega

/-! ### The edges of level 3 -/

/-- The edges out of node `i`, in the order in which they are relaxed (R151). -/
def edgesFrom (p : List Byte) (i : Nat) : List Edge := matchEdges p i ++ literalEdges p i

/-- An edge leads forward, and not beyond the payload's end (R150). -/
theorem edgesFrom_bounds {p : List Byte} {i : Nat} {e : Edge} (he : e ∈ edgesFrom p i) :
    1 ≤ e.len ∧ i + e.len ≤ p.length := by
  rcases List.mem_append.1 he with he | he
  · obtain ⟨m, hm, h3, hl, -, -⟩ := (mem_matchEdges p i e).1 he
    obtain ⟨hbest, -⟩ := (usable_eq_some_iff _ m).1 hm
    have := (isMatchAt_of_bestMatch hbest).len_le
    omega
  · obtain ⟨h1, hl, -, -⟩ := (mem_literalEdges p i e).1 he
    omega

/-- The token of an edge is within FMT's contract, and its block has the edge's cost (R150, R153). -/
theorem edgeToken_of_mem_edgesFrom {p : List Byte} {i : Nat} {e : Edge} (he : e ∈ edgesFrom p i) :
    (edgeToken p (i, e.len, e.dist)).inRange = true ∧ (edgeToken p (i, e.len, e.dist)).cost = e.cost := by
  obtain ⟨-, hend⟩ := edgesFrom_bounds he
  rcases List.mem_append.1 he with he | he
  · obtain ⟨m, hm, h3, hl, hd, hc⟩ := (mem_matchEdges p i e).1 he
    obtain ⟨hbest, -⟩ := (usable_eq_some_iff _ m).1 hm
    have hmatch := isMatchAt_of_bestMatch hbest
    have htok : edgeToken p (i, e.len, e.dist) = .dist e.len m.dist :=
      hd ▸ if_neg (Nat.ne_of_gt (hd ▸ hmatch.pos_dist))
    rw [htok]
    exact ⟨hmatch.inRange h3 hl, hc.symm⟩
  · obtain ⟨h1, hl, hd, hc⟩ := (mem_literalEdges p i e).1 he
    have htok : edgeToken p (i, e.len, e.dist) = .lit (slice p i (i + e.len)) := if_pos hd
    have hlen : (slice p i (i + e.len)).length = e.len := by rw [length_slice hend, Nat.add_sub_cancel_left]
    rw [htok, Token.cost, hlen]
    refine ⟨?_, hc.symm⟩
    simp only [Token.inRange, Bool.and_eq_true, decide_eq_true_eq, hlen]
    omega

/-! ### The table of level 3 -/

/-- Relaxing an edge changes no entry but the one it leads to (R151). -/
theorem relax_other (i : Nat) (t : CostTable) (e : Edge) {j : Nat} (hj : j ≠ i + e.len) :
    (relax i t e)[j]?.join = t[j]?.join := by
  unfold relax
  split
  · rfl
  · split
    · rw [List.getElem?_set_ne hj.symm]
    · split
      · rw [List.getElem?_set_ne hj.symm]
      · rfl

/-- An edge out of an unreached node changes nothing (R151). -/
theorem relax_unreached {i : Nat} {t : CostTable} (h : t[i]?.join = none) (e : Edge) : relax i t e = t := by
  rw [relax, h]

/-- Relaxing an edge leaves at its end the cheaper of the path over the edge and the entry that was there (R151). -/
theorem relax_target {i : Nat} {t : CostTable} {e : Edge} {source : Node} (hsource : t[i]?.join = some source)
    (hfit : i + e.len < t.length) :
    ∃ new, (relax i t e)[i + e.len]?.join = some new ∧
      (new = ⟨source.cost + e.cost, e.len, e.dist⟩ ∨ t[i + e.len]?.join = some new) ∧
      new.cost ≤ source.cost + e.cost ∧ ∀ old, t[i + e.len]?.join = some old → new.cost ≤ old.cost := by
  simp only [relax, hsource]
  cases hold : t[i + e.len]?.join with
  | none => exact ⟨_, by simp [hfit], .inl rfl, le_rfl, by simp⟩
  | some old =>
    by_cases hlt : source.cost + e.cost < old.cost
    · exact ⟨_, by simp [hlt, hfit], .inl rfl, le_rfl, by simp [hlt.le]⟩
    · exact ⟨old, by simp [hlt, hold], .inr rfl, Nat.not_lt.1 hlt, by simp⟩

/-- What the table keeps while it is filled, `done` being the edges relaxed so far with their start nodes (R151):
node 0 has cost 0, every other reached node got its entry over a relaxed edge from a reached node, and no relaxed edge
improves an entry any more. -/
structure Relaxed (done : List (Nat × Edge)) (t : CostTable) : Prop where
  root : t[0]?.join = some ⟨0, 0, 0⟩
  reached : ∀ j node, t[j]?.join = some node → j ≠ 0 → ∃ i source cost,
    (i, ⟨node.elen, node.edist, cost⟩) ∈ done ∧ i + node.elen = j ∧ t[i]?.join = some source ∧
      node.cost = source.cost + cost
  closed : ∀ i e source, (i, e) ∈ done → t[i]?.join = some source →
    ∃ node, t[i + e.len]?.join = some node ∧ node.cost ≤ source.cost + e.cost

/-- The first table has node 0 alone (R151). -/
theorem relaxed_initTable (n : Nat) : Relaxed [] (initTable n) where
  root := rfl
  reached j node hj hne := by
    obtain ⟨j, rfl⟩ := Nat.exists_eq_succ_of_ne_zero hne
    simp only [initTable, List.getElem?_cons_succ, List.getElem?_replicate] at hj
    split at hj <;> cases hj
  closed i e source hmem _ := by cases hmem

/-- An edge out of an unreached node counts as relaxed: it says nothing of the table (R151). -/
theorem Relaxed.append_unreached {done : List (Nat × Edge)} {t : CostTable} (h : Relaxed done t) {i : Nat}
    (hsource : t[i]?.join = none) (e : Edge) : Relaxed (done ++ [(i, e)]) t := by
  refine ⟨h.root, fun j node hj hne => ?_, fun k edge source hmem hk => ?_⟩
  · obtain ⟨k, source, cost, hmem, hrest⟩ := h.reached j node hj hne
    exact ⟨k, source, cost, List.mem_append_left _ hmem, hrest⟩
  · rcases List.mem_append.1 hmem with hmem | hmem
    · exact h.closed k edge source hmem hk
    · cases List.mem_singleton.1 hmem
      simp [hsource] at hk

/-- Relaxing one more edge, from a reached node no earlier than those before it: the entries at and before its start
node are final, so what the earlier edges did stands (R151). -/
theorem Relaxed.relax_reached {done : List (Nat × Edge)} {t : CostTable} (h : Relaxed done t) {i : Nat} {e : Edge}
    {start : Node} (hsource : t[i]?.join = some start) (hlen : 1 ≤ e.len) (hfit : i + e.len < t.length)
    (hlast : ∀ r ∈ done, r.1 ≤ i) : Relaxed (done ++ [(i, e)]) (relax i t e) := by
  have hkeep : ∀ k, k ≤ i → (relax i t e)[k]?.join = t[k]?.join := fun k hk => relax_other i t e (by omega)
  obtain ⟨new, hnew, horigin, hle, hold⟩ := relax_target hsource hfit
  refine ⟨(hkeep 0 (Nat.zero_le i)).trans h.root, fun j node hj hne => ?_, fun k edge source hmem hk => ?_⟩
  · have hj' : t[j]?.join = some node ∨ j = i + e.len ∧ node = ⟨start.cost + e.cost, e.len, e.dist⟩ := by
      by_cases hjt : j = i + e.len
      · subst hjt
        obtain rfl : new = node := Option.some.inj (hnew.symm.trans hj)
        exact horigin.symm.imp_right fun hfresh => ⟨rfl, hfresh⟩
      · exact .inl ((relax_other i t e hjt).symm.trans hj)
    rcases hj' with hj' | ⟨rfl, rfl⟩
    · obtain ⟨k, source, cost, hmem, hend, hk, hcost⟩ := h.reached j node hj' hne
      exact ⟨k, source, cost, List.mem_append_left _ hmem, hend, (hkeep k (hlast _ hmem)).trans hk, hcost⟩
    · exact ⟨i, start, e.cost, by simp, rfl, (hkeep i le_rfl).trans hsource, rfl⟩
  · rcases List.mem_append.1 hmem with hmem | hmem
    · obtain ⟨node, hnode, hcost⟩ := h.closed k edge source hmem ((hkeep k (hlast _ hmem)).symm.trans hk)
      by_cases hkt : k + edge.len = i + e.len
      · exact ⟨new, hkt ▸ hnew, (hold node (hkt ▸ hnode)).trans hcost⟩
      · exact ⟨node, (relax_other i t e hkt).trans hnode, hcost⟩
    · cases List.mem_singleton.1 hmem
      obtain rfl : start = source := Option.some.inj (hsource.symm.trans ((hkeep i le_rfl).symm.trans hk))
      exact ⟨new, hnew, hle⟩

/-- Relaxing one more edge, from a node no earlier than those before it, keeps the table's properties (R151). -/
theorem Relaxed.relax_next {done : List (Nat × Edge)} {t : CostTable} (h : Relaxed done t) {i : Nat} {e : Edge}
    (hlen : 1 ≤ e.len) (hfit : i + e.len < t.length) (hlast : ∀ r ∈ done, r.1 ≤ i) :
    Relaxed (done ++ [(i, e)]) (relax i t e) := by
  cases hsource : t[i]?.join with
  | none => exact (relax_unreached hsource e).symm ▸ h.append_unreached hsource e
  | some start => exact h.relax_reached hsource hlen hfit hlast

/-- All relaxations of the forward pass, each an edge with its start node, in order (R151). -/
def relaxations (p : List Byte) : List (Nat × Edge) :=
  (List.range p.length).flatMap fun i => (edgesFrom p i).map (Prod.mk i)

/-- What is relaxed: the edges out of the nodes before the last (R151). -/
theorem mem_relaxations {p : List Byte} {i : Nat} {e : Edge} :
    (i, e) ∈ relaxations p ↔ i < p.length ∧ e ∈ edgesFrom p i := by
  simp [relaxations]

/-- The forward pass takes the nodes in rising order (R151). -/
theorem relaxations_sorted (p : List Byte) : (relaxations p).Pairwise fun r r' => r.1 ≤ r'.1 := by
  rw [relaxations, List.pairwise_flatMap]
  refine ⟨fun i _ => ?_, List.pairwise_lt_range.imp fun {i j} hij => ?_⟩
  · exact List.pairwise_map.2 (List.pairwise_of_forall fun _ _ => le_rfl)
  · simp only [List.mem_map]
    rintro _ ⟨e, _, rfl⟩ _ ⟨e', _, rfl⟩
    exact hij.le

/-- The forward pass is one fold over its relaxations. -/
theorem costTable_eq_foldl (p : List Byte) :
    costTable p = (relaxations p).foldl (fun t r => relax r.1 t r.2) (initTable p.length) := by
  rw [relaxations, List.foldl_flatMap, costTable]
  simp only [List.foldl_map]
  rfl

/-- Edges relaxed in the order of their start nodes keep the table's properties (R151). -/
theorem relaxed_foldl {n : Nat} {rs : List (Nat × Edge)} (hsorted : rs.Pairwise fun r r' => r.1 ≤ r'.1)
    (hfit : ∀ r ∈ rs, 1 ≤ r.2.len ∧ r.1 + r.2.len ≤ n) :
    (rs.foldl (fun t r => relax r.1 t r.2) (initTable n)).length = n + 1 ∧
      Relaxed rs (rs.foldl (fun t r => relax r.1 t r.2) (initTable n)) := by
  induction rs using List.reverseRecOn with
  | nil => exact ⟨by simp [initTable], relaxed_initTable n⟩
  | append_singleton rs r ih =>
    obtain ⟨hsorted, -, hlast⟩ := List.pairwise_append.1 hsorted
    obtain ⟨hfit, hr⟩ := List.forall_mem_append.1 hfit
    obtain ⟨hlen, hend⟩ := hr r (List.mem_singleton_self r)
    obtain ⟨hlength, hrelaxed⟩ := ih hsorted hfit
    rw [List.foldl_concat, relax_length]
    exact ⟨hlength, hrelaxed.relax_next hlen (hlength ▸ Nat.lt_succ_of_le hend)
      fun r' hr' => hlast r' hr' r (List.mem_singleton_self r)⟩

/-- The finished table: all edges are relaxed (R151). -/
theorem relaxed_costTable (p : List Byte) : Relaxed (relaxations p) (costTable p) := by
  rw [costTable_eq_foldl]
  exact (relaxed_foldl (relaxations_sorted p) fun _ hr => edgesFrom_bounds (mem_relaxations.1 hr).2).2

/-- Every node is reached, at no more than the cost of a literal run: a literal edge leads to it from the last
multiple of 32 before it (R155). -/
theorem exists_costTable_entry (p : List Byte) {j : Nat} (hj : j ≤ p.length) :
    ∃ node, (costTable p)[j]?.join = some node ∧ node.cost ≤ j + Config.ceil32 j := by
  induction j using Nat.strong_induction_on with
  | _ j ih =>
    rcases Nat.eq_zero_or_pos j with rfl | hpos
    · exact ⟨_, (relaxed_costTable p).root, Nat.zero_le _⟩
    · obtain ⟨i, hi, hij⟩ : ∃ i, i = 32 * ((j - 1) / 32) ∧ i < j := ⟨_, rfl, by omega⟩
      obtain ⟨source, hsource, hcost⟩ := ih i hij (by omega)
      have hedge : ⟨j - i, 0, 1 + (j - i)⟩ ∈ edgesFrom p i := by
        refine List.mem_append_right _ ((mem_literalEdges p i _).2 ⟨?_, ?_, rfl, rfl⟩)
        · exact Nat.sub_pos_of_lt hij
        · simp only [Config.maxLit]
          omega
      obtain ⟨node, hnode, hle⟩ := (relaxed_costTable p).closed i _ source
        (mem_relaxations.2 ⟨hij.trans_le hj, hedge⟩) hsource
      rw [Nat.add_sub_cancel' hij.le] at hnode
      refine ⟨node, hnode, hle.trans ?_⟩
      simp only [Config.ceil32] at hcost ⊢
      omega

/-- A proof about the reconstruction goes from node `n` back to node 0, one edge of the table at a time (R152). -/
theorem walkBack_induction {p : List Byte} {motive : Nat → List (Nat × Nat × Nat) → Prop}
    (last : motive p.length [])
    (edge : ∀ i e source node path, e ∈ edgesFrom p i → (costTable p)[i]?.join = some source →
      (costTable p)[i + e.len]?.join = some node → node.cost = source.cost + e.cost →
      motive (i + e.len) path → motive i ((i, e.len, e.dist) :: path)) :
    motive 0 (walkBack (costTable p) p.length p.length []) := by
  suffices ∀ fuel j path, j ≤ fuel → j ≤ p.length → motive j path →
      motive 0 (walkBack (costTable p) fuel j path) from this _ _ _ le_rfl le_rfl last
  intro fuel
  induction fuel with
  | zero =>
    intro j path hfuel _ hpath
    obtain rfl : j = 0 := by omega
    exact hpath
  | succ fuel ih =>
    intro j path hfuel hj hpath
    by_cases hzero : j = 0
    · subst hzero
      exact hpath
    · obtain ⟨node, hnode, -⟩ := exists_costTable_entry p hj
      obtain ⟨i, source, cost, hmem, rfl, hsource, hcost⟩ := (relaxed_costTable p).reached j node hnode hzero
      obtain ⟨-, he⟩ := mem_relaxations.1 hmem
      have hlen : 1 ≤ node.elen := (edgesFrom_bounds he).1
      simp only [walkBack, if_neg hzero, hnode, Nat.add_sub_cancel]
      exact ih i _ (by omega) (by omega) (edge i _ source node path he hsource hnode hcost hpath)

/-- The tokens of level 3 are within FMT's contract (R156). -/
theorem tokens3_inRange (p : List Byte) : ∀ t ∈ tokens3 p, t.inRange = true := by
  refine walkBack_induction (p := p)
    (motive := fun _ path => ∀ t ∈ path.map (edgeToken p), t.inRange = true) (by simp) ?edge
  case edge =>
    intro i e _ _ path he _ _ _ ih
    exact List.forall_mem_cons.2 ⟨(edgeToken_of_mem_edgesFrom he).1, ih⟩

/-- The tokens of level 3 take as many bytes as the table says at node `n` (R153). -/
theorem sum_cost_tokens3 {p : List Byte} {final : Node} (hfinal : (costTable p)[p.length]?.join = some final) :
    ((tokens3 p).map Token.cost).sum = final.cost := by
  have hwalk := walkBack_induction (p := p)
    (motive := fun j path => ∀ node, (costTable p)[j]?.join = some node →
      node.cost + ((path.map (edgeToken p)).map Token.cost).sum = final.cost) ?last ?edge
  case last =>
    intro node hnode
    rw [Option.some.inj (hnode.symm.trans hfinal)]
    rfl
  case edge =>
    intro i e source node path he hsource hnode hcost ih source' hsource'
    obtain rfl := Option.some.inj (hsource.symm.trans hsource')
    have htail := ih node hnode
    rw [List.map_cons, List.map_cons, List.sum_cons, (edgeToken_of_mem_edgesFrom he).2, ← Nat.add_assoc, ← hcost]
    exact htail
  exact (Nat.zero_add _).symm.trans (hwalk _ (relaxed_costTable p).root)

/-! ### The compressor operations -/

/-- Every level's tokens are within FMT's contract (R156). -/
theorem tokens_inRange (k : Fin 4) (p : List Byte) : ∀ t ∈ tokens k p, t.inRange = true :=
  match k with
  | 0 => lits_inRange p
  | 1 => greedy_inRange fun _ _ => isMatchAt_of_firstMatch
  | 2 => greedy_inRange fun _ _ => isMatchAt_of_bestMatch
  | 3 => tokens3_inRange p

/-- No level's tokens take more than a literal run of the payload (R155). -/
theorem sum_cost_tokens_le (k : Fin 4) (p : List Byte) :
    ((tokens k p).map Token.cost).sum ≤ p.length + Config.ceil32 p.length :=
  match k with
  | 0 => (sum_cost_lits p).le
  | 1 => sum_cost_greedy_le fun _ _ => isMatchAt_of_firstMatch
  | 2 => sum_cost_greedy_le fun _ _ => isMatchAt_of_bestMatch
  | 3 => by
    obtain ⟨final, hfinal, hle⟩ := exists_costTable_entry p le_rfl
    exact (sum_cost_tokens3 hfinal).trans_le hle

/-- `COMP.k` compresses with the tokens of level `k` (R140). -/
theorem exec_compInstr (k : Fin 4) (s : State) : exec (compInstr k) s = s.compress (tokens k) :=
  match k with
  | 0 => rfl
  | 1 => rfl
  | 2 => rfl
  | 3 => rfl

/-- The compressor on a readable payload whose tokens have an encoding (R140). -/
theorem State.compress_of_encodes {s : State} {p stream : List Byte} {toks : List Byte → List Token}
    (hfits : s.ilen ≤ s.cfg.ibufCap) (hp : s.payload = some p)
    (hstream : encodeTokens s.cfg.extPos (toks p) = .ok stream) :
    s.compress toks = .next (s.deliverOrOvf stream) := by
  rw [State.compress, State.withPayload_some hfits hp, hstream]

/-- Settles O50: every level's tokens are within FMT's contract, so their encoding exists; it is no longer than a
literal run of the payload, which the bound on `OBUF_CAP` leaves room for; its length against `OBUF_CAP` decides
between `OVF` and delivery. -/
theorem compDeliversTheEncodedTokens : Obligations.CompDeliversTheEncodedTokens := by
  intro s k
  rw [exec_compInstr]
  refine ⟨fun hlong => ?_, fun p hfits hp => ?_⟩
  · rw [State.compress, State.withPayload_tooLong hlong]
    rfl
  · obtain ⟨stream, hstream, hlen⟩ := encodeTokens_of_inRange s.cfg.extPos (tokens_inRange k p)
    obtain ⟨hplen, -⟩ := (State.payload_eq_some_iff s p).1 hp
    rw [State.compress_of_encodes hfits hp hstream]
    refine ⟨stream, hstream, fun hadm => ?_, fun hover => ?_, fun hroom => ?_⟩
    · have hle := sum_cost_tokens_le k p
      have hbound := hadm.2
      simp only [Config.ceil32] at hle hbound
      omega
    · rw [State.deliverOrOvf_over hover]
      rfl
    · rw [State.deliverOrOvf_fits hroom]
      rfl

end Sys2Proof.Machine


/-!
PROOFS of the family `60_exceptions`: error `ILEN` (R188).
-/
namespace Sys2Proof.Machine

/-- Settles O13: each of the seven operations begins with the shared start, which raises `ILEN` before it looks at
`IBUF`. -/
theorem tooLongPayloadRaisesIlen : Obligations.TooLongPayloadRaisesIlen := by
  intro i s hi hlong
  obtain ⟨unit, -, hexec⟩ := exec_command hi
  rw [hexec, State.withPayload_tooLong hlong, State.raise, statusError_ilen]

end Sys2Proof.Machine


/-!
PROOFS of the family `other`, encodings: the block layouts read and written (R74 to R81), FMT's blocks against them
(R120, R122), and the length of a stream (R124).
-/
namespace Sys2Proof.Machine

/-- The six rows of the short match blocks, each with its length field (R76). -/
inductive ShortRow : BitVec 3 → (BitVec 13 → Instr) → Prop where
  | s1 : ShortRow 1#3 .distS1
  | s2 : ShortRow 2#3 .distS2
  | s3 : ShortRow 3#3 .distS3
  | s4 : ShortRow 4#3 .distS4
  | s5 : ShortRow 5#3 .distS5
  | s6 : ShortRow 6#3 .distS6

/-- A short row's length field is neither that of a literal nor that of a long block (R74). -/
theorem ShortRow.toNat_bounds {lf : BitVec 3} {row : BitVec 13 → Instr} (h : ShortRow lf row) :
    1 ≤ lf.toNat ∧ lf.toNat ≤ 6 := by
  cases h <;> decide

theorem ShortRow.encode_eq {lf : BitVec 3} {row : BitVec 13 → Instr} (h : ShortRow lf row) (pos : ExtBytePos)
    (d : BitVec 13) : encode pos (row d) = encodeShort lf d := by
  cases h <;> rfl

theorem ShortRow.tokenOf_eq {lf : BitVec 3} {row : BitVec 13 → Instr} (h : ShortRow lf row) (d : BitVec 13) :
    tokenOf (row d) = some (.dist (shortLength lf.toNat) (distanceOf d)) := by
  cases h <;> rfl

theorem ShortRow.wf_eq {lf : BitVec 3} {row : BitVec 13 → Instr} (h : ShortRow lf row) (d : BitVec 13) :
    (row d).wf = true := by
  cases h <;> rfl

theorem ShortRow.size_eq {lf : BitVec 3} {row : BitVec 13 → Instr} (h : ShortRow lf row) (d : BitVec 13) :
    (row d).size = 2 := by
  cases h <;> rfl

/-- The top three bits of a first byte are its length field (R74). -/
theorem lengthField_headByte (lf : BitVec 3) (x : BitVec 5) : BitVec.extractLsb' (n := 8) 5 3 (lf ++ x) = lf :=
  BitVec.extractLsb'_append_eq_left

/-- The low five bits of a first byte (R75 to R77). -/
theorem low_headByte (lf : BitVec 3) (x : BitVec 5) : BitVec.extractLsb' (n := 8) 0 5 (lf ++ x) = x :=
  BitVec.extractLsb'_append_eq_right

/-- The length field selects the row (R74, R76). -/
theorem ShortRow.decodeToken_eq {lf : BitVec 3} {row : BitVec 13 → Instr} (h : ShortRow lf row)
    (pos : ExtBytePos) (x : BitVec 5) (rest : List Byte) :
    decodeToken pos ((lf ++ x) :: rest) = decodeShort row x rest := by
  cases h <;> rw [decodeToken, lengthField_headByte, low_headByte] <;> rfl

/-- Length field 0 is a literal (R74, R75). -/
theorem decodeToken_litHead (pos : ExtBytePos) (x : BitVec 5) (rest : List Byte) :
    decodeToken pos ((0#3 ++ x) :: rest) = decodeLit (x.toNat + 1) rest := by
  rw [decodeToken, lengthField_headByte, low_headByte]
  rfl

/-- Length field 7 is a long match block (R74, R77). -/
theorem decodeToken_longHead (pos : ExtBytePos) (x : BitVec 5) (rest : List Byte) :
    decodeToken pos ((7#3 ++ x) :: rest) = decodeLong pos x rest := by
  rw [decodeToken, lengthField_headByte, low_headByte]
  rfl

/-- A length field is that of a literal, of a short row or of a long block (R74). -/
theorem lengthField_cases (lf : BitVec 3) : lf = 0#3 ∨ (∃ row, ShortRow lf row) ∨ lf = 7#3 := by
  have hvalues : lf = 0#3 ∨ lf = 1#3 ∨ lf = 2#3 ∨ lf = 3#3 ∨ lf = 4#3 ∨ lf = 5#3 ∨ lf = 6#3 ∨ lf = 7#3 := by
    revert lf
    decide
  rcases hvalues with rfl | rfl | rfl | rfl | rfl | rfl | rfl | rfl
  · exact .inl rfl
  · exact .inr (.inl ⟨_, .s1⟩)
  · exact .inr (.inl ⟨_, .s2⟩)
  · exact .inr (.inl ⟨_, .s3⟩)
  · exact .inr (.inl ⟨_, .s4⟩)
  · exact .inr (.inl ⟨_, .s5⟩)
  · exact .inr (.inl ⟨_, .s6⟩)
  · exact .inr (.inr rfl)

/-- A first byte is a length field above five bits (R74). -/
theorem headByte_cases (h : Byte) :
    ∃ x : BitVec 5, h = 0#3 ++ x ∨ (∃ lf row, ShortRow lf row ∧ h = lf ++ x) ∨ h = 7#3 ++ x := by
  have hsplit : h = h.extractLsb' 5 3 ++ h.extractLsb' 0 5 :=
    (BitVec.extractLsb'_append_extractLsb' (w := 3) (len := 5) (x := h)).symm
  refine ⟨h.extractLsb' 0 5, ?_⟩
  rcases lengthField_cases (h.extractLsb' 5 3) with hlf | ⟨row, hrow⟩ | hlf
  · exact .inl (hlf ▸ hsplit)
  · exact .inr (.inl ⟨_, row, hrow, hsplit⟩)
  · exact .inr (.inr (hlf ▸ hsplit))

/-- Every block is a literal, a short match block of some row, or a long one (R75 to R77). -/
theorem block_cases {i : Instr} (hi : i.isCommand = false) :
    (∃ data, i = .lit data) ∨ (∃ lf row d, ShortRow lf row ∧ i = row d) ∨ ∃ d ext, i = .distL d ext := by
  cases i with
  | lit data => exact .inl ⟨data, rfl⟩
  | distS1 d => exact .inr (.inl ⟨_, _, d, .s1, rfl⟩)
  | distS2 d => exact .inr (.inl ⟨_, _, d, .s2, rfl⟩)
  | distS3 d => exact .inr (.inl ⟨_, _, d, .s3, rfl⟩)
  | distS4 d => exact .inr (.inl ⟨_, _, d, .s4, rfl⟩)
  | distS5 d => exact .inr (.inl ⟨_, _, d, .s5, rfl⟩)
  | distS6 d => exact .inr (.inl ⟨_, _, d, .s6, rfl⟩)
  | distL d ext => exact .inr (.inr ⟨d, ext, rfl⟩)
  | chk => cases hi
  | neg => cases hi
  | wave => cases hi
  | comp0 => cases hi
  | comp1 => cases hi
  | comp2 => cases hi
  | comp3 => cases hi

/-- A distance field is its five high bits before its low byte (R76). -/
theorem append_distance (d : BitVec 13) : d.extractLsb' 8 5 ++ d.extractLsb' 0 8 = d :=
  BitVec.extractLsb'_append_extractLsb' (w := 5) (len := 8) (x := d)

/-- The five high bits of a distance field (R76). -/
theorem high_distance (dh : BitVec 5) (dl : Byte) : BitVec.extractLsb' (n := 13) 8 5 (dh ++ dl) = dh :=
  BitVec.extractLsb'_append_eq_left

/-- The low byte of a distance field (R76). -/
theorem low_distance (dh : BitVec 5) (dl : Byte) : BitVec.extractLsb' (n := 13) 0 8 (dh ++ dl) = dl :=
  BitVec.extractLsb'_append_eq_right

/-- A well-formed literal has 1 to 32 bytes (R75). -/
theorem wf_lit_iff (data : List Byte) : (Instr.lit data).wf = true ↔ 1 ≤ data.length ∧ data.length ≤ 32 := by
  simp [Instr.wf]

/-- A block's encoding followed by any bytes decodes to the block and those bytes (R74 to R78). -/
theorem decodeToken_encode (pos : ExtBytePos) {i : Instr} (hw : i.wf = true) (hi : i.isCommand = false)
    (rest : List Byte) : decodeToken pos (encode pos i ++ rest) = .ok (i, rest) := by
  rcases block_cases hi with ⟨data, rfl⟩ | ⟨lf, row, d, hrow, rfl⟩ | ⟨d, ext, rfl⟩
  · obtain ⟨hmin, hmax⟩ := (wf_lit_iff data).1 hw
    have hlen : (BitVec.ofNat 5 (data.length - 1)).toNat + 1 = data.length := by
      rw [BitVec.toNat_ofNat]
      omega
    rw [encode, List.cons_append, decodeToken_litHead, hlen, decodeLit, if_neg (by simp)]
    simp
  · rw [hrow.encode_eq, encodeShort, List.cons_append, hrow.decodeToken_eq]
    simp [decodeShort, append_distance]
  · cases pos <;>
      simp [encode, encodeShort, decodeToken_longHead, decodeLong, append_distance]

/-- A command's word is read back as the command (R71, R72). -/
theorem decodeCommand_encode (pos : ExtBytePos) {i : Instr} (hi : i.isCommand = true) :
    ∃ c, encode pos i = [c] ∧ decodeCommand c = .ok i := by
  obtain ⟨hchk, hneg, hwave, hcomp0, hcomp1, hcomp2, hcomp3⟩ := commandCodesSelectTheirOperations
  cases i with
  | chk => exact ⟨_, rfl, hchk⟩
  | neg => exact ⟨_, rfl, hneg⟩
  | wave => exact ⟨_, rfl, hwave⟩
  | comp0 => exact ⟨_, rfl, hcomp0⟩
  | comp1 => exact ⟨_, rfl, hcomp1⟩
  | comp2 => exact ⟨_, rfl, hcomp2⟩
  | comp3 => exact ⟨_, rfl, hcomp3⟩
  | lit data => cases hi
  | distS1 d => cases hi
  | distS2 d => cases hi
  | distS3 d => cases hi
  | distS4 d => cases hi
  | distS5 d => cases hi
  | distS6 d => cases hi
  | distL d ext => cases hi

/-- Settles O32: a command is its word, and the three kinds of block are read back field by field. -/
theorem decodeUndoesEncode : Obligations.DecodeUndoesEncode :=
  fun pos _ hw => ⟨decodeCommand_encode pos, fun hi => decodeToken_encode pos hw hi⟩

/-- The bytes of a block read from a stream, followed by the rest, are the stream (R74 to R78). -/
theorem encode_append_of_decodeToken {pos : ExtBytePos} {bytes rest : List Byte} {i : Instr}
    (h : decodeToken pos bytes = .ok (i, rest)) : encode pos i ++ rest = bytes := by
  cases bytes with
  | nil => cases h
  | cons head tail =>
    obtain ⟨x, rfl | ⟨lf, row, hrow, rfl⟩ | rfl⟩ := headByte_cases head
    · rw [decodeToken_litHead, decodeLit] at h
      split at h
      · cases h
      · next hlen =>
        obtain ⟨rfl, rfl⟩ := Prod.mk.inj (Except.ok.inj h)
        have hx : (tail.take (x.toNat + 1)).length - 1 = x.toNat := by
          rw [List.length_take]
          omega
        rw [encode, hx, BitVec.ofNat_toNat, BitVec.setWidth_eq, List.cons_append, List.take_append_drop]
    · rw [hrow.decodeToken_eq] at h
      cases tail with
      | nil => cases h
      | cons dl tail =>
        obtain ⟨rfl, rfl⟩ := Prod.mk.inj (Except.ok.inj h)
        simp [hrow.encode_eq, encodeShort, high_distance, low_distance]
    · rw [decodeToken_longHead] at h
      rcases tail with _ | ⟨b1, _ | ⟨b2, tail⟩⟩
      · cases h
      · cases h
      · cases pos <;> obtain ⟨rfl, rfl⟩ := Prod.mk.inj (Except.ok.inj h) <;>
          simp [encode, encodeShort, high_distance, low_distance]

/-- Settles O33: the first byte's length field selects the row, whose encoding lays the fields out where they were
read. -/
theorem encodeUndoesDecode : Obligations.EncodeUndoesDecode := by
  intro pos bytes rest i h
  obtain ⟨hi, hw, -⟩ := decodeToken_ok h
  exact ⟨hw, hi, encode_append_of_decodeToken h⟩

/-- What follows a block read from a stream begins after the block's size (R79). -/
theorem rest_of_decodeToken {pos : ExtBytePos} {bytes rest : List Byte} {i : Instr}
    (h : decodeToken pos bytes = .ok (i, rest)) : rest = bytes.drop i.size := by
  obtain ⟨-, -, hlen⟩ := decodeToken_ok h
  have hbytes := encode_append_of_decodeToken h
  have hsize : (encode pos i).length = i.size := by
    have := congrArg List.length hbytes
    rw [List.length_append] at this
    omega
  rw [← hbytes, ← hsize, List.drop_left]

/-- A first byte as a number (R74). -/
theorem toNat_headByte (lf : BitVec 3) (x : BitVec 5) : (lf ++ x).toNat = 32 * lf.toNat + x.toNat := by
  rw [BitVec.toNat_append, ← Nat.shiftLeft_add_eq_or_of_lt x.isLt, Nat.shiftLeft_eq, Nat.mul_comm]

/-- The size of the block that a first byte announces (R79). -/
def blockSize (h : Byte) : Nat :=
  if h.toNat / 32 = 0 then 2 + h.toNat % 32 else if h.toNat / 32 = 7 then 3 else 2

theorem blockSize_litHead (x : BitVec 5) : blockSize (0#3 ++ x) = x.toNat + 2 := by
  have hx := x.isLt
  have h0 : (0#3 ++ x).toNat = 32 * 0 + x.toNat := toNat_headByte 0#3 x
  rw [blockSize, h0, if_pos (by omega)]
  omega

theorem ShortRow.blockSize_eq {lf : BitVec 3} {row : BitVec 13 → Instr} (h : ShortRow lf row) (x : BitVec 5) :
    blockSize (lf ++ x) = 2 := by
  have hx := x.isLt
  obtain ⟨h1, h6⟩ := h.toNat_bounds
  rw [blockSize, toNat_headByte, if_neg (by omega), if_neg (by omega)]

theorem blockSize_longHead (x : BitVec 5) : blockSize (7#3 ++ x) = 3 := by
  have hx := x.isLt
  have h7 : (7#3 ++ x).toNat = 32 * 7 + x.toNat := toNat_headByte 7#3 x
  rw [blockSize, h7, if_neg (by omega), if_pos (by omega)]

/-- A stream that ends inside its first block is rejected as truncated (R81 (a)). -/
theorem decodeToken_truncated (pos : ExtBytePos) {h : Byte} {rest : List Byte}
    (hlen : rest.length + 1 < blockSize h) : decodeToken pos (h :: rest) = .error .truncated := by
  obtain ⟨x, rfl | ⟨lf, row, hrow, rfl⟩ | rfl⟩ := headByte_cases h
  · rw [blockSize_litHead] at hlen
    rw [decodeToken_litHead, decodeLit, if_pos (by omega)]
  · rw [hrow.blockSize_eq] at hlen
    rw [hrow.decodeToken_eq, List.length_eq_zero_iff.1 (show rest.length = 0 by omega)]
    rfl
  · rw [blockSize_longHead] at hlen
    rw [decodeToken_longHead]
    rcases rest with _ | ⟨b1, _ | ⟨b2, rest⟩⟩
    · rfl
    · rfl
    · simp only [List.length_cons] at hlen
      omega

/-- A stream with as many bytes as its first byte announces begins with a block of that size (R74, R79). -/
theorem exists_decodeToken (pos : ExtBytePos) {h : Byte} {rest : List Byte}
    (hlen : blockSize h ≤ rest.length + 1) :
    ∃ i after, decodeToken pos (h :: rest) = .ok (i, after) ∧ i.size = blockSize h := by
  obtain ⟨x, rfl | ⟨lf, row, hrow, rfl⟩ | rfl⟩ := headByte_cases h
  · rw [blockSize_litHead] at hlen ⊢
    rw [decodeToken_litHead, decodeLit, if_neg (by omega)]
    refine ⟨_, _, rfl, ?_⟩
    rw [Instr.size, List.length_take]
    omega
  · rw [hrow.blockSize_eq] at hlen ⊢
    rw [hrow.decodeToken_eq]
    cases rest with
    | nil => simp at hlen
    | cons dl rest => exact ⟨_, _, rfl, hrow.size_eq _⟩
  · rw [blockSize_longHead] at hlen ⊢
    rw [decodeToken_longHead]
    rcases rest with _ | ⟨b1, _ | ⟨b2, rest⟩⟩
    · simp at hlen
    · simp at hlen
    · cases pos <;> exact ⟨_, _, rfl, rfl⟩

/-- Settles O34: each kind of first byte needs as many bytes as its layout has; what follows the block is the stream
after that many. -/
theorem firstByteGivesBlockSize : Obligations.FirstByteGivesBlockSize := by
  intro pos h rest
  refine ⟨decodeToken_truncated pos, fun hlen => ?_⟩
  obtain ⟨i, after, hdecode, hsize⟩ := exists_decodeToken pos hlen
  obtain rfl := rest_of_decodeToken hdecode
  rw [hsize] at hdecode
  exact ⟨i, hdecode, hsize⟩

/-- Settles O35: each word is read by evaluation. -/
theorem writtenOutWordsDecode : Obligations.WrittenOutWordsDecode :=
  ⟨rfl, rfl, rfl, rfl, rfl, rfl⟩

/-! ### FMT against the rows -/

/-- The first byte of a block in arithmetic: the length field above the five bits (R122). -/
theorem ofNat_headByte (lf : BitVec 3) (x : BitVec 5) : BitVec.ofNat 8 (32 * lf.toNat + x.toNat) = lf ++ x := by
  rw [← toNat_headByte, BitVec.ofNat_toNat, BitVec.setWidth_eq]

/-- The five high bits of a distance field in arithmetic (R76). -/
theorem toNat_high_distance (d : BitVec 13) : (d.extractLsb' 8 5).toNat = d.toNat / 256 := by
  have hd := d.isLt
  rw [BitVec.extractLsb'_toNat, Nat.shiftRight_eq_div_pow]
  omega

/-- The low byte of a distance field in arithmetic (R76). -/
theorem ofNat_low_distance (d : BitVec 13) : BitVec.ofNat 8 (d.toNat % 256) = d.extractLsb' 0 8 :=
  BitVec.eq_of_toNat_eq (by simp)

/-- Only blocks are tokens (R83). -/
theorem isCommand_of_tokenOf {i : Instr} {t : Token} (h : tokenOf i = some t) : i.isCommand = false := by
  cases i <;> cases h <;> rfl

/-- FMT lays out a row's token as the row's encoding (R75 to R78, R120, R122). -/
theorem emit_of_tokenOf (pos : ExtBytePos) {i : Instr} {t : Token} (hw : i.wf = true) (ht : tokenOf i = some t) :
    emit pos t = .ok (encode pos i) := by
    rcases block_cases (isCommand_of_tokenOf ht) with ⟨data, rfl⟩ | ⟨lf, row, d, hrow, rfl⟩ | ⟨d, ext, rfl⟩
    · obtain rfl : Token.lit data = t := Option.some.inj ht
      obtain ⟨hmin, hmax⟩ := (wf_lit_iff data).1 hw
      have hhead := ofNat_headByte 0#3 (BitVec.ofNat 5 (data.length - 1))
      rw [BitVec.toNat_ofNat, BitVec.toNat_ofNat, Nat.mod_eq_of_lt (by omega : data.length - 1 < 2 ^ 5)] at hhead
      rw [emit, emitLit_of_length hmin hmax, litBlock, encode, ← hhead]
      simp
    · obtain ⟨h1, h6⟩ := hrow.toNat_bounds
      have hd := d.isLt
      rw [hrow.tokenOf_eq] at ht
      obtain rfl := Option.some.inj ht
      rw [emit, shortLength, distanceOf, emitDist_short pos (by omega) (by omega) (by omega) (by omega),
        Nat.add_sub_cancel, Nat.add_sub_cancel, hrow.encode_eq, encodeShort, ← toNat_high_distance, ofNat_headByte,
        ofNat_low_distance]
    · have hd := d.isLt
      have hext := ext.isLt
      obtain rfl : Token.dist (longLength ext) (distanceOf d) = t := Option.some.inj ht
      have hhead := ofNat_headByte 7#3 (d.extractLsb' 8 5)
      rw [emit, longLength, distanceOf, emitDist_long pos (by omega) (by omega) (by omega) (by omega),
        Nat.add_sub_cancel, Nat.add_sub_cancel, ← toNat_high_distance, ofNat_low_distance, BitVec.ofNat_toNat,
        BitVec.setWidth_eq]
      cases pos <;> simp only [encode, encodeShort, ← hhead] <;> rfl

/-- Settles O37: the length field, the distance field and the extension byte stand where the row's layout has them. -/
theorem formatterEmitsTheRowEncoding : Obligations.FormatterEmitsTheRowEncoding :=
  fun pos _ _ => emit_of_tokenOf pos

/-- The literals FMT accepts (R120, R130). -/
theorem inRange_lit_iff (bytes : List Byte) :
    (Token.lit bytes).inRange = true ↔ 1 ≤ bytes.length ∧ bytes.length ≤ 32 := by
  simp [Token.inRange]

/-- The matches FMT accepts (R122, R130). -/
theorem inRange_dist_iff (len dist : Nat) :
    (Token.dist len dist).inRange = true ↔ 3 ≤ len ∧ len ≤ 264 ∧ 1 ≤ dist ∧ dist ≤ 8192 := by
  simp [Token.inRange, and_assoc]

/-- Every match length from 3 to 8 has a short row (R76, R78). -/
theorem exists_shortRow {len : Nat} (hmin : 3 ≤ len) (hmax : len ≤ 8) :
    ∃ lf row, ShortRow lf row ∧ shortLength lf.toNat = len := by
  interval_cases len
  · exact ⟨_, _, .s1, rfl⟩
  · exact ⟨_, _, .s2, rfl⟩
  · exact ⟨_, _, .s3, rfl⟩
  · exact ⟨_, _, .s4, rfl⟩
  · exact ⟨_, _, .s5, rfl⟩
  · exact ⟨_, _, .s6, rfl⟩

/-- Every token within FMT's contract has a row (R75 to R78, R80). -/
theorem exists_row {t : Token} (ht : t.inRange = true) : ∃ i : Instr, i.wf = true ∧ tokenOf i = some t := by
  cases t with
  | lit data => exact ⟨.lit data, (wf_lit_iff data).2 ((inRange_lit_iff data).1 ht), rfl⟩
  | dist len dist =>
    obtain ⟨hmin, hmax, hd, hw⟩ := (inRange_dist_iff len dist).1 ht
    have hdist : distanceOf (BitVec.ofNat 13 (dist - 1)) = dist := by
      rw [distanceOf, BitVec.toNat_ofNat]
      omega
    by_cases hshort : len ≤ 8
    · obtain ⟨lf, row, hrow, hlen⟩ := exists_shortRow hmin hshort
      exact ⟨row _, hrow.wf_eq _, by rw [hrow.tokenOf_eq, hlen, hdist]⟩
    · have hlen : longLength (BitVec.ofNat 8 (len - 9)) = len := by
        rw [longLength, BitVec.toNat_ofNat]
        omega
      exact ⟨.distL _ _, rfl, by rw [tokenOf, hlen, hdist]⟩

/-- A token has one row at most: its rows have the same encoding, which decodes to one of them only. -/
theorem row_unique {i j : Instr} {t : Token} (hi : i.wf = true) (hit : tokenOf i = some t) (hj : j.wf = true)
    (hjt : tokenOf j = some t) : i = j := by
  have hbytes : encode .trailing i = encode .trailing j :=
    Except.ok.inj ((emit_of_tokenOf .trailing hi hit).symm.trans (emit_of_tokenOf .trailing hj hjt))
  have hread := decodeToken_encode .trailing hi (isCommand_of_tokenOf hit) []
  rw [hbytes, decodeToken_encode .trailing hj (isCommand_of_tokenOf hjt) []] at hread
  exact (Prod.mk.inj (Except.ok.inj hread)).1.symm

/-- Settles O38: the row is found by the length, and is unique since decoding undoes encoding. -/
theorem everyTokenHasExactlyOneRow : Obligations.EveryTokenHasExactlyOneRow := by
  intro t ht
  obtain ⟨i, hw, htok⟩ := exists_row ht
  exact ⟨i, ⟨hw, htok⟩, fun j ⟨hjw, hjt⟩ => row_unique hjw hjt hw htok⟩

/-- Settles O40: FMT lays out each token within its contract in a block of the token's size. -/
theorem encodedLengthIsTokenCost : Obligations.EncodedLengthIsTokenCost :=
  fun pos _ => encodeTokens_of_inRange pos

end Sys2Proof.Machine


/-!
PROOFS of the family `other`, the reference decoder: the steps of the token rows (R126 to R128), `Decode` on encoded
tokens (R129), and the machine's decoder moves against `Decode` (R125).
-/
namespace Sys2Proof.Machine

/-! ### The token rows -/

/-- Running a row is the decoder's step with the row's token (R126, R127). -/
theorem exec_row {i : Instr} {t : Token} (hw : i.wf = true) (ht : tokenOf i = some t) (s : State) :
    exec i s = s.replayStep t i.size := by
  obtain ⟨t', ht', hexec⟩ := exec_token (isCommand_of_tokenOf ht) hw
  obtain rfl : t = t' := Option.some.inj (ht.symm.trans ht')
  exact hexec s

/-- A decoder step with a token that can be replayed. -/
theorem State.replayStep_some {s : State} {t : Token} {out : List Byte} (h : replayToken t s.dec.out = some out)
    (size : Nat) : s.replayStep t size = .next { s with dec := ⟨s.dec.stream, s.dec.i + size, out⟩ } := by
  rw [State.replayStep, h]

/-- A decoder step with a token that cannot be replayed (R128). -/
theorem State.replayStep_none {s : State} {t : Token} (h : replayToken t s.dec.out = none) (size : Nat) :
    s.replayStep t size = .fault .decDist := by
  rw [State.replayStep, h]

/-- Settles O41: the literal is replayed by appending it, and its block has one byte more. -/
theorem litAppendsItsBytes : Obligations.LitAppendsItsBytes := by
  intro s data hmin hmax
  rw [exec_row ((wf_lit_iff data).2 ⟨hmin, hmax⟩) rfl, State.replayStep_some rfl, Instr.size, Nat.add_assoc]

/-- The seven distance rows, each with its match length and block size (R76, R77). -/
def distRows (d : BitVec 13) (ext : BitVec 8) : List (Instr × Nat × Nat) :=
  [(.distS1 d, 3, 2), (.distS2 d, 4, 2), (.distS3 d, 5, 2), (.distS4 d, 6, 2), (.distS5 d, 7, 2),
    (.distS6 d, 8, 2), (.distL d ext, ext.toNat + 9, 3)]

/-- What the distance rows stand for (R78). -/
theorem distRows_spec (d : BitVec 13) (ext : BitVec 8) : ∀ q ∈ distRows d ext,
    q.1.wf = true ∧ tokenOf q.1 = some (.dist q.2.1 (distanceOf d)) ∧ q.1.size = q.2.2 := by
  simp [distRows, Instr.wf, tokenOf, Instr.size, shortLength, longLength]

/-- Settles O42: a distance row is a copy of its match length from its distance, which keeps the output and places
each new byte by the recurrence of R62. -/
theorem distCopiesFromItsDistance : Obligations.DistCopiesFromItsDistance := by
  intro s d ext q hq hd
  obtain ⟨hw, ht, hsize⟩ := distRows_spec d ext q hq
  have hreplay : replayToken (.dist q.2.1 (distanceOf d)) s.dec.out = some (copyBytes (d.toNat + 1) q.2.1 s.dec.out) :=
    (replayToken_eq_some_iff _ _ _).2 (.inr ⟨_, _, rfl, Nat.le_add_left 1 _, hd, rfl⟩)
  refine ⟨copyBytes (d.toNat + 1) q.2.1 s.dec.out, ?_, copyBytes_length _ _ _, ?_,
    fun k hk => copyBytes_getElem_new (Nat.le_add_left 1 _) _ _ hd hk⟩
  · rw [exec_row hw ht, State.replayStep_some hreplay, hsize]
  · exact (List.prefix_iff_eq_take.1 (copyBytes_prefix _ _ _)).symm

/-- Settles O43: a distance beyond the output cannot be replayed, and a stream shorter than its first byte announces
is no block. -/
theorem decoderFaultsOnIllegalStreams : Obligations.DecoderFaultsOnIllegalStreams := by
  refine ⟨fun s d ext i hi hd => ?_, fun s rest h tail hscript hdrop hlen => ?_⟩
  · obtain ⟨q, hq, rfl⟩ : ∃ q ∈ distRows d ext, q.1 = i := List.mem_map.1 hi
    obtain ⟨hw, ht, -⟩ := distRows_spec d ext q hq
    rw [exec_row hw ht, State.replayStep_none]
    exact if_pos (.inr hd)
  · have hlt : s.dec.i < s.dec.stream.length :=
      Nat.not_le.1 fun hge => by simp [List.drop_eq_nil_of_le hge] at hdrop
    rw [step_of_script hscript, hostMove, nextBlock, if_pos hlt, hdrop, decodeToken_truncated _ hlen, finish_done]

/-- A row that answers a next state is well formed: an ill-formed literal is refused (log entry 20). -/
theorem wf_of_exec_next {i : Instr} {s t : State} (hi : i.isCommand = false) (h : exec i s = .next t) :
    i.wf = true := by
  rcases block_cases hi with ⟨data, rfl⟩ | ⟨lf, row, d, hrow, rfl⟩ | ⟨d, ext, rfl⟩
  · refine (wf_lit_iff data).2 ?_
    by_contra hlen
    have hrefused : exec (.lit data) s = .refused .illFormed := if_pos (by simp only [Config.maxLit]; omega)
    rw [hrefused] at h
    cases h
  · exact hrow.wf_eq d
  · rfl

/-- Settles O44: a row that answers a next state is a decoder step, and a replayed token only appends. -/
theorem tokensChangeOnlyTheDecoder : Obligations.TokensChangeOnlyTheDecoder := by
  intro i s t hi h
  obtain ⟨tok, -, hexec⟩ := exec_token hi (wf_of_exec_next hi h)
  obtain ⟨out, hreplay, rfl⟩ := State.replayStep_next ((hexec s).symm.trans h)
  exact ⟨rfl, rfl, rfl, replayToken_prefix hreplay⟩

/-! ### `Decode` -/

theorem decodeLoop_nil (pos : ExtBytePos) (fuel : Nat) (out : List Byte) : decodeLoop pos fuel [] out = .ok out := by
  cases fuel <;> rfl

/-- The loop of `Decode` at a block whose token can be replayed (R125). -/
theorem decodeLoop_of_replays {pos : ExtBytePos} {bytes rest out out' : List Byte} {i : Instr} {t : Token}
    (hblock : decodeToken pos bytes = .ok (i, rest)) (ht : tokenOf i = some t)
    (hreplay : replayToken t out = some out') (fuel : Nat) :
    decodeLoop pos (fuel + 1) bytes out = decodeLoop pos fuel rest out' := by
  cases bytes with
  | nil => cases hblock
  | cons h tail => simp [decodeLoop, hblock, ht, hreplay]

/-- The loop of `Decode` at a block whose token cannot be replayed (R128). -/
theorem decodeLoop_of_not_replays {pos : ExtBytePos} {bytes rest out : List Byte} {i : Instr} {t : Token}
    (hblock : decodeToken pos bytes = .ok (i, rest)) (ht : tokenOf i = some t) (hreplay : replayToken t out = none)
    (fuel : Nat) : decodeLoop pos (fuel + 1) bytes out = .error .dist := by
  cases bytes with
  | nil => cases hblock
  | cons h tail => simp [decodeLoop, hblock, ht, hreplay]

/-- The loop of `Decode` where the stream ends inside a block (R128). -/
theorem decodeLoop_of_truncated {pos : ExtBytePos} {bytes : List Byte} {e : DecodeError} (hne : bytes ≠ [])
    (hblock : decodeToken pos bytes = .error e) (fuel : Nat) (out : List Byte) :
    decodeLoop pos (fuel + 1) bytes out = .error .trunc := by
  cases bytes with
  | nil => exact absurd rfl hne
  | cons h tail => simp [decodeLoop, hblock]

/-- Every instruction takes a byte at least (R70, R79). -/
theorem one_le_size (i : Instr) : 1 ≤ i.size := by
  cases i <;> simp [Instr.size]

/-- A block takes a byte at least, so what follows it is shorter than the stream (R79). -/
theorem rest_length_lt_of_decodeToken {pos : ExtBytePos} {bytes rest : List Byte} {i : Instr}
    (h : decodeToken pos bytes = .ok (i, rest)) : rest.length < bytes.length := by
  obtain ⟨-, -, hlen⟩ := decodeToken_ok h
  have hsize := one_le_size i
  omega

/-- The first token of a replay and the replay of the rest (R129). -/
theorem replayFrom_cons_eq_some {t : Token} {ts : List Token} {out out' : List Byte}
    (h : replayFrom (t :: ts) out = some out') :
    ∃ mid, replayToken t out = some mid ∧ replayFrom ts mid = some out' := by
  cases hmid : replayToken t out with
  | none => simp [replayFrom, hmid] at h
  | some mid => exact ⟨mid, rfl, by simpa [replayFrom, hmid] using h⟩

/-- Tokens within FMT's contract have an encoding that decodes, after any output, to what the tokens replay to
(R129). -/
theorem exists_encodeTokens_decodeLoop (pos : ExtBytePos) {ts : List Token} (hts : ∀ t ∈ ts, t.inRange = true)
    {out out' : List Byte} (hreplay : replayFrom ts out = some out') :
    ∃ stream, encodeTokens pos ts = .ok stream ∧
      ∀ fuel, stream.length ≤ fuel → decodeLoop pos fuel stream out = .ok out' := by
  induction ts generalizing out with
  | nil =>
    obtain rfl := Option.some.inj hreplay
    exact ⟨[], rfl, fun fuel _ => decodeLoop_nil pos fuel out⟩
  | cons t ts ih =>
    obtain ⟨ht, hrest⟩ := List.forall_mem_cons.1 hts
    obtain ⟨mid, hmid, htail⟩ := replayFrom_cons_eq_some hreplay
    obtain ⟨blocks, hblocks, hdecode⟩ := ih hrest htail
    obtain ⟨i, hw, hi⟩ := exists_row ht
    have hblock := decodeToken_encode pos hw (isCommand_of_tokenOf hi) blocks
    have hstream : encodeTokens pos (t :: ts) = .ok (encode pos i ++ blocks) := by
      simp only [encodeTokens, emit_of_tokenOf pos hw hi, hblocks]
    refine ⟨encode pos i ++ blocks, hstream, fun fuel hfuel => ?_⟩
    have hlt := rest_length_lt_of_decodeToken hblock
    obtain ⟨fuel, rfl⟩ := Nat.exists_eq_succ_of_ne_zero (show fuel ≠ 0 by omega)
    rw [decodeLoop_of_replays hblock hi hmid]
    exact hdecode fuel (by omega)

/-- Settles O45: block by block, the decoder reads back the row that FMT laid out and replays its token. -/
theorem decodeOfEncodeIsReplay : Obligations.DecodeOfEncodeIsReplay := by
  intro pos ts out hts hreplay
  obtain ⟨stream, hstream, hdecode⟩ := exists_encodeTokens_decodeLoop pos hts hreplay
  exact ⟨stream, hstream, hdecode _ le_rfl⟩

/-! ### The machine's decoder moves -/

/-- A move that the host makes first is the step's move. -/
theorem step_script_cons (s : State) (m : HostMove) : step { s with script := m :: s.script } = finish (hostMove s m) :=
  rfl

/-- The host's moves go on from where the first one leads. -/
theorem State.drive_cons_next {s t : State} {m : HostMove} (h : finish (hostMove s m) = .next t) (ms : List HostMove) :
    s.drive (m :: ms) = t.drive ms := by
  rw [State.drive, step_script_cons, h]

/-- The host's moves end where the first one faults. -/
theorem State.drive_cons_fault {s : State} {m : HostMove} {f : Fault} (h : finish (hostMove s m) = .fault f)
    (ms : List HostMove) : s.drive (m :: ms) = .fault f := by
  rw [State.drive, step_script_cons, h]

/-- How the machine ends when `Decode` of the rest of the stream has the given outcome (R125, R128). -/
def State.decoded (s : State) : Except DecFault (List Byte) → Result
  | .ok out => .next { s with dec := ⟨s.dec.stream, s.dec.stream.length, out⟩ }
  | .error .trunc => .fault .decTrunc
  | .error .dist => .fault .decDist

/-- A decoder move at the end of the stream changes nothing (log entry 13). -/
theorem nextBlock_of_usedUp {s : State} (h : s.dec.stream.length ≤ s.dec.i) : nextBlock s = .done (.next s) :=
  if_neg (Nat.not_lt.2 h)

/-- A decoder move at a block runs the block (R125). -/
theorem nextBlock_of_block {s : State} {i : Instr} {rest : List Byte} (hlt : s.dec.i < s.dec.stream.length)
    (h : decodeToken s.cfg.extPos (s.dec.stream.drop s.dec.i) = .ok (i, rest)) : nextBlock s = .run i s := by
  rw [nextBlock, if_pos hlt, h]

/-- A decoder move where the stream ends inside a block faults (R128). -/
theorem nextBlock_of_truncated {s : State} {e : DecodeError} (hlt : s.dec.i < s.dec.stream.length)
    (h : decodeToken s.cfg.extPos (s.dec.stream.drop s.dec.i) = .error e) :
    nextBlock s = .done (.fault .decTrunc) := by
  rw [nextBlock, if_pos hlt, h]

/-- Decoder moves, as many as the stream has bytes left or more, run the loop of `Decode` on the rest of the stream:
move by move the loop spends one unit of fuel (R125). -/
theorem State.drive_replayBlocks (n : Nat) {s : State} (hin : s.dec.i ≤ s.dec.stream.length)
    (hn : s.dec.stream.length ≤ s.dec.i + n) :
    s.drive (List.replicate n .replayBlock) =
      s.decoded (decodeLoop s.cfg.extPos n (s.dec.stream.drop s.dec.i) s.dec.out) := by
  induction n generalizing s with
  | zero =>
    have hi : s.dec.i = s.dec.stream.length := by omega
    rw [List.drop_eq_nil_of_le hi.ge, decodeLoop_nil, State.decoded, ← hi]
    rfl
  | succ n ih =>
    rw [List.replicate_succ]
    rcases hin.eq_or_lt with hi | hlt
    · rw [State.drive_cons_next (m := .replayBlock) (congrArg finish (nextBlock_of_usedUp hi.ge)), ih hin (by omega),
        List.drop_eq_nil_of_le hi.ge, decodeLoop_nil, decodeLoop_nil]
    · cases hblock : decodeToken s.cfg.extPos (s.dec.stream.drop s.dec.i) with
      | error e =>
        rw [State.drive_cons_fault (m := .replayBlock) (congrArg finish (nextBlock_of_truncated hlt hblock)),
          decodeLoop_of_truncated (by simpa using hlt) hblock]
        rfl
      | ok block =>
        obtain ⟨i, rest⟩ := block
        obtain ⟨hcmd, hw, hlen⟩ := decodeToken_ok hblock
        obtain ⟨t, ht, hexec⟩ := exec_token hcmd hw
        have hmove : finish (hostMove s .replayBlock) = s.replayStep t i.size :=
          (congrArg finish (nextBlock_of_block hlt hblock)).trans (hexec s)
        cases hreplay : replayToken t s.dec.out with
        | none =>
          rw [State.drive_cons_fault (hmove.trans (State.replayStep_none hreplay _)),
            decodeLoop_of_not_replays hblock ht hreplay]
          rfl
        | some out =>
          have hshort := rest_length_lt_of_decodeToken hblock
          rw [List.length_drop] at hlen hshort
          rw [State.drive_cons_next (hmove.trans (State.replayStep_some hreplay _)),
            decodeLoop_of_replays hblock ht hreplay, rest_of_decodeToken hblock, List.drop_drop]
          exact ih (by simp only; omega) (by simp only; omega)

/-- Settles O46: the machine's moves and the loop of `Decode` go block by block alike, so they end with the same
output or the same fault. -/
theorem decoderStepsComputeDecode : Obligations.DecoderStepsComputeDecode := by
  intro s bytes run
  have hrun : run = State.decoded { s with dec := ⟨bytes, 0, []⟩ } (decodeStream s.cfg.extPos bytes) :=
    State.drive_replayBlocks bytes.length (Nat.zero_le _) (Nat.zero_add _).ge
  exact ⟨fun out h => by rw [hrun, h]; rfl, fun h => by rw [hrun, h]; rfl, fun h => by rw [hrun, h]; rfl⟩

end Sys2Proof.Machine


/-!
PROOFS of the family `other`, the step: what a step can do, the invariant it keeps, the accesses it refuses, and what
an operation leaves in `STATUS` (10_state section 3, 20_memory sections 3 and 4, 60_exceptions, 70_reset).
-/
namespace Sys2Proof.Machine

/-! ### The host's moves -/

/-- Settles O2: a reset move leads to ENC's reset state, with all that is not ENC's kept. -/
theorem resetMoveRestoresResetState : Obligations.ResetMoveRestoresResetState := by
  intro s rest hscript
  rw [step_of_script hscript]
  rfl

/-- A command word that the decoder reads starts its operation, with `CMD` written (R25). -/
theorem acceptCommand_of_ok {s : State} {c : Byte} {i : Instr} (h : decodeCommand c = .ok i) :
    acceptCommand s c = .run i { s with cmd := c } := by
  rw [acceptCommand, h]

/-- Settles O8: the value fits the register, and the decoder reads the word. -/
theorem stepRunsTheWrittenCommand : Obligations.StepRunsTheWrittenCommand := by
  intro s v rest i hscript hv hdecode
  rw [step_of_script hscript, hostMove, writeReg, if_pos hv, acceptCommand_of_ok hdecode, finish_run]

/-- Settles O9: the stream is not used up, and it holds a block at the decoder's index. -/
theorem stepRunsTheDecodedBlock : Obligations.StepRunsTheDecodedBlock := by
  intro s rest i after hscript hlt hdecode
  rw [step_of_script hscript, hostMove, nextBlock_of_block (s := { s with script := rest }) hlt hdecode, finish_run]

/-- Settles O10: each access is the step's move, its guard holds, and a written byte of `IBUF` reads back. -/
theorem hostAccessesHaveTheirSideEffects : Obligations.HostAccessesHaveTheirSideEffects := by
  intro s rest
  refine ⟨fun r v hscript hv => ?_, fun i b hscript hi hb => ?_, fun c i hscript hi => ?_, fun v hscript hv => ?_,
    fun i b hscript hi => ?_, fun v hscript hv => ?_, fun v hscript hv => ?_, fun i b hscript hi => ?_⟩ <;>
    rw [step_of_script hscript]
  · have hread : State.readReg { s with script := rest } r = some v := hv
    rw [hostMove, readReg, hread]
    rfl
  · rw [hostMove, readObuf, if_pos hi, hb]
    rfl
  · rw [hostMove_writeReg_cmd, acceptCommand_of_ok hi, finish_run]
  · rw [hostMove, writeReg, if_pos hv, finish_done]
  · refine ⟨s.ibuf.write i b, ?_, Memory.read_write_same _ _ _, fun j hj => Memory.read_write_other _ b hj⟩
    rw [hostMove, writeIbuf, if_pos hi, finish_done]
  · rw [hostMove, writeReg, if_pos hv, finish_done]
  · rw [hostMove, writeReg, if_pos hv, finish_done]
  · rw [hostMove, writeObuf, if_pos hi, finish_done]

/-- What a step that answers a next state did: nothing, for want of a move; a command, with `CMD` written; a block of
the decoder; or a move that runs no instruction. -/
theorem step_next {s t : State} (h : step s = .next t) :
    (s.script = [] ∧ t = s) ∨
    ∃ m rest, s.script = m :: rest ∧
      ((∃ v i, m = .writeReg 0 v ∧ i.isCommand = true ∧
          exec i { s with cmd := BitVec.ofNat 8 v, script := rest } = .next t) ∨
        (∃ i after, m = .replayBlock ∧ decodeToken s.cfg.extPos (s.dec.stream.drop s.dec.i) = .ok (i, after) ∧
          exec i { s with script := rest } = .next t) ∨
        hostMove { s with script := rest } m = .done (.next t)) := by
  cases hscript : s.script with
  | nil =>
    rw [step_idle hscript] at h
    exact .inl ⟨rfl, (Host.Outcome.next.inj h).symm⟩
  | cons m rest =>
    rw [step_of_script hscript] at h
    refine .inr ⟨m, rest, rfl, ?_⟩
    cases hmove : hostMove { s with script := rest } m with
    | done r =>
      rw [hmove, finish_done] at h
      exact .inr (.inr (congrArg _ h))
    | run i s' =>
      rw [hmove, finish_run] at h
      rcases hostMove_run hmove with ⟨v, rfl, -, hdecode, rfl⟩ | ⟨rfl, -, rfl, after, hdecode⟩
      · exact .inl ⟨v, i, rfl, isCommand_of_decodeCommand hdecode, h⟩
      · exact .inr (.inl ⟨i, after, rfl, hdecode, h⟩)

/-! ### The invariant -/

/-- Settles O3: after reset there is no operation, no byte with a value and no stream. -/
theorem invariantHoldsAtReset : Obligations.InvariantHoldsAtReset := fun c hadm =>
  { admissible := hadm
    notBusy := (by decide : statusBusy 0#8 = false)
    reserved := (by decide : (0#8 : Byte).extractLsb' 5 3 = 0#3)
    errLegal := (by decide : (statusErr 0#8).toNat ≤ 4)
    beforeFirst := fun _ => ⟨rfl, rfl⟩
    errorEmpty := fun _ => rfl
    ilenFits := Nat.two_pow_pos _
    olenFits := Nat.zero_le _
    ibufWf := List.Pairwise.nil
    ibufIn := fun _ h => absurd h List.not_mem_nil
    obufExact := rfl
    decIn := le_rfl }

/-- `CMD` is no part of the invariant. -/
theorem State.Inv.withCmd {s : State} (h : s.Inv) (c : Byte) : State.Inv { s with cmd := c } :=
  { h with }

/-- The host's moves to come are no part of the invariant. -/
theorem State.Inv.withScript {s : State} (h : s.Inv) (rest : List HostMove) : State.Inv { s with script := rest } :=
  { h with }

/-- What the host has seen is no part of the invariant. -/
theorem State.Inv.saw {s : State} (h : s.Inv) (v : Nat) : (s.saw v).Inv :=
  { h with }

/-- A write of `ILEN` within its width keeps the invariant (R23). -/
theorem State.Inv.withIlen {s : State} (h : s.Inv) {v : Nat} (hv : v < 2 ^ s.cfg.lenW) :
    State.Inv { s with ilen := v } :=
  { h with ilenFits := hv }

/-- A write of a byte that `IBUF` has keeps the invariant (R21, R65). -/
theorem State.Inv.writeIbuf {s : State} (h : s.Inv) {a : Nat} (ha : a < s.cfg.ibufCap) (b : Byte) :
    State.Inv { s with ibuf := s.ibuf.write a b } :=
  { h with
    ibufWf := Memory.write_wf h.ibufWf a b
    ibufIn := fun c hc => by
      rcases (Memory.mem_keys_write s.ibuf a b c.1).1 (List.mem_map_of_mem hc) with hkey | hkey
      · exact hkey ▸ ha
      · obtain ⟨c', hc', hkey⟩ := List.mem_map.1 hkey
        exact hkey ▸ h.ibufIn c' hc' }

/-- A decoder whose index lies inside its stream keeps the invariant (R125). -/
theorem State.Inv.withDec {s : State} (h : s.Inv) {d : Decoder} (hd : d.i ≤ d.stream.length) :
    State.Inv { s with dec := d } :=
  { h with decIn := hd }

/-- A reset keeps the invariant: ENC is as after reset, and the decoder stays (R210). -/
theorem State.Inv.resetEnc {s : State} (h : s.Inv) : s.resetEnc.Inv :=
  { invariantHoldsAtReset s.cfg h.admissible with decIn := h.decIn }

/-- `STATUS` after a delivered result has `ERR` 0, `DONE` 1 and `BUSY` 0. -/
theorem statusOk_fields : statusBusy statusOk = false ∧ statusDone statusOk = true ∧ statusErr statusOk = 0#3 ∧
    statusOk.extractLsb' 5 3 = 0#3 :=
  statusWord_fields 0#3 true false

/-- A delivered result that fits keeps the invariant (R22, R26). -/
theorem State.Inv.deliver {s : State} (h : s.Inv) {bytes : List Byte} (hfits : bytes.length ≤ s.cfg.obufCap) :
    (s.deliver bytes).Inv := by
  obtain ⟨hbusy, hdone, herr, hreserved⟩ := statusOk_fields
  exact
    { h with
      notBusy := hbusy
      reserved := hreserved
      errLegal := herr ▸ Nat.zero_le 4
      beforeFirst := fun hnot => absurd (hdone.symm.trans hnot) (by decide)
      errorEmpty := fun hne => absurd herr hne
      olenFits := hfits
      obufExact := (Memory.keys_ofBytes 0 bytes).trans List.range_eq_range'.symm }

/-- An error raised keeps the invariant (R26, R192). -/
theorem State.Inv.raise {s : State} (h : s.Inv) (e : Err) : (s.raise e).Inv := by
  obtain ⟨hbusy, hdone, herr, hreserved⟩ := statusError_fields e
  exact
    { h with
      notBusy := hbusy
      reserved := hreserved
      errLegal := herr ▸ e.code_range.2
      beforeFirst := fun hnot => absurd (hdone.symm.trans hnot) (by decide)
      errorEmpty := fun _ => rfl
      olenFits := Nat.zero_le _
      obufExact := rfl }

/-- A command keeps the invariant: it raises an error, or delivers a result that fits (R35). -/
theorem State.Inv.exec_command {i : Instr} {s t : State} (h : s.Inv) (hi : i.isCommand = true)
    (hnext : exec i s = .next t) : t.Inv := by
  rcases exec_command_next hi hnext with ⟨e, rfl⟩ | ⟨bytes, rfl, hfits⟩
  · exact h.raise e
  · exact h.deliver (hfits h.admissible)

/-- A block of the decoder's stream keeps the invariant: the index moves past the block, which is in the stream
(R125). -/
theorem State.Inv.exec_block {i : Instr} {s t : State} {after : List Byte} (h : s.Inv)
    (hblock : decodeToken s.cfg.extPos (s.dec.stream.drop s.dec.i) = .ok (i, after))
    (hnext : exec i s = .next t) : t.Inv := by
  obtain ⟨hi, hw, hlen⟩ := decodeToken_ok hblock
  obtain ⟨tok, -, hexec⟩ := exec_token hi hw
  obtain ⟨out, -, rfl⟩ := State.replayStep_next ((hexec s).symm.trans hnext)
  have hin := h.decIn
  rw [List.length_drop] at hlen
  exact h.withDec (by simp only; omega)

/-- A move that runs no instruction keeps the invariant (R57, R65, R210). -/
theorem State.Inv.hostMove_done {s t : State} {m : HostMove} (h : s.Inv) (hmove : hostMove s m = .done (.next t)) :
    t.Inv := by
  rcases hostMove_done_next hmove with ⟨v, -, -, rfl⟩ | ⟨v, -, hv, rfl⟩ | ⟨a, b, -, ha, rfl⟩ | ⟨v, rfl⟩ | ⟨-, rfl⟩ |
    ⟨bytes, -, rfl⟩ | rfl
  · exact (h.withCmd _).raise .illop
  · exact h.withIlen hv
  · exact h.writeIbuf ha b
  · exact h.saw v
  · exact h.resetEnc
  · exact h.withDec (Nat.zero_le _)
  · exact h

/-- Settles O4: each of the ways in which a step ends keeps the invariant. -/
theorem invariantKeptByEveryStep : Obligations.InvariantKeptByEveryStep := by
  intro s t hinv hstep
  rcases step_next hstep with ⟨-, rfl⟩ | ⟨m, rest, -, ⟨v, i, -, hi, hexec⟩ | ⟨i, after, -, hblock, hexec⟩ | hmove⟩
  · exact hinv
  · exact ((hinv.withScript rest).withCmd _).exec_command hi hexec
  · exact (hinv.withScript rest).exec_block hblock hexec
  · exact (hinv.withScript rest).hostMove_done hmove

/-! ### What an operation leaves in `STATUS` -/

/-- A complete result is delivered or raises `OVF` (R189). -/
theorem State.deliverOrOvf_ends (s : State) (bytes : List Byte) :
    s.deliverOrOvf bytes = s.raise .ovf ∨ ∃ result, s.deliverOrOvf bytes = s.deliver result := by
  rcases Nat.lt_or_ge s.cfg.obufCap bytes.length with hover | hroom
  · exact .inl (State.deliverOrOvf_over hover)
  · exact .inr ⟨bytes, State.deliverOrOvf_fits hroom⟩

/-- An operation whose unit raises nothing but `OVF` ends with error `ILEN` or `OVF` or with a result. -/
theorem State.withPayload_ends {s t : State} {unit : List Byte → State}
    (hunit : ∀ p, unit p = s.raise .ovf ∨ ∃ bytes, unit p = s.deliver bytes) (h : s.withPayload unit = .next t) :
    t = s.raise .ilen ∨ t = s.raise .ovf ∨ ∃ bytes, t = s.deliver bytes := by
  rcases State.withPayload_next h with ⟨-, rfl⟩ | ⟨-, p, -, rfl⟩
  · exact .inl rfl
  · exact .inr (hunit p)

/-- The compressor raises no `INV`, since every level's tokens are within FMT's contract (R156). -/
theorem State.compress_ends {s t : State} {k : Fin 4} (h : s.compress (tokens k) = .next t) :
    t = s.raise .ilen ∨ t = s.raise .ovf ∨ ∃ bytes, t = s.deliver bytes := by
  refine State.withPayload_ends (fun p => ?_) h
  obtain ⟨stream, hstream, -⟩ := encodeTokens_of_inRange s.cfg.extPos (tokens_inRange k p)
  simp only [hstream]
  exact s.deliverOrOvf_ends stream

/-- Every operation ends with error `ILEN` or `OVF` or with a result; none ends with `INV` (R156, R191). -/
theorem exec_command_ends {i : Instr} {s t : State} (hi : i.isCommand = true) (h : exec i s = .next t) :
    t = s.raise .ilen ∨ t = s.raise .ovf ∨ ∃ bytes, t = s.deliver bytes := by
  cases i with
  | chk => exact State.withPayload_ends (fun p => .inr ⟨[chk p], rfl⟩) h
  | neg => exact State.withPayload_ends (fun p => s.deliverOrOvf_ends _) h
  | wave => exact State.withPayload_ends (fun p => s.deliverOrOvf_ends _) h
  | comp0 => exact State.compress_ends (k := 0) h
  | comp1 => exact State.compress_ends (k := 1) h
  | comp2 => exact State.compress_ends (k := 2) h
  | comp3 => exact State.compress_ends (k := 3) h
  | lit data => cases hi
  | distS1 d => cases hi
  | distS2 d => cases hi
  | distS3 d => cases hi
  | distS4 d => cases hi
  | distS5 d => cases hi
  | distS6 d => cases hi
  | distL d ext => cases hi

/-- Settles O5: an operation ends with another error or with none, a reserved command word with `ILLOP`, and a reset
with none; no other move writes `STATUS`. -/
theorem noStepRaisesInv : Obligations.NoStepRaisesInv := by
  intro s t hs hstep
  rcases step_next hstep with ⟨-, rfl⟩ | ⟨m, rest, -, ⟨v, i, -, hi, hexec⟩ | ⟨i, after, -, hblock, hexec⟩ | hmove⟩
  · exact hs
  · rcases exec_command_ends hi hexec with rfl | rfl | ⟨bytes, rfl⟩
    · exact (by decide : statusErr (statusError .ilen) ≠ 4#3)
    · exact (by decide : statusErr (statusError .ovf) ≠ 4#3)
    · exact (by decide : statusErr statusOk ≠ 4#3)
  · obtain ⟨hframe, -⟩ := tokensChangeOnlyTheDecoder i _ t (decodeToken_ok hblock).1 hexec
    rw [hframe]
    exact hs
  · rcases hostMove_done_next hmove with ⟨v, -, -, rfl⟩ | ⟨v, -, -, rfl⟩ | ⟨a, b, -, -, rfl⟩ | ⟨v, rfl⟩ | ⟨-, rfl⟩ |
      ⟨bytes, -, rfl⟩ | rfl
    · exact (by decide : statusErr (statusError .illop) ≠ 4#3)
    · exact hs
    · exact hs
    · exact hs
    · exact (by decide : statusErr 0#8 ≠ 4#3)
    · exact hs
    · exact hs

/-- Settles O12: a block changes the decoder alone, and of the moves that run no instruction only a command word and
a reset write these fields. -/
theorem outcomeLivesUntilNextCommandOrReset : Obligations.OutcomeLivesUntilNextCommandOrReset := by
  intro s t m rest hscript hcmd hreset hstep
  rcases step_next hstep with ⟨hnil, -⟩ | ⟨m', rest', hscript', hcases⟩
  · cases hscript.symm.trans hnil
  obtain ⟨rfl, rfl⟩ := List.cons.inj (hscript.symm.trans hscript')
  rcases hcases with ⟨v, i, rfl, -, -⟩ | ⟨i, after, -, hblock, hexec⟩ | hmove
  · cases hcmd
  · obtain ⟨hframe, -⟩ := tokensChangeOnlyTheDecoder i _ t (decodeToken_ok hblock).1 hexec
    rw [hframe]
    exact ⟨rfl, rfl, rfl, rfl⟩
  · rcases hostMove_done_next hmove with ⟨v, rfl, -, -⟩ | ⟨v, -, -, rfl⟩ | ⟨a, b, -, -, rfl⟩ | ⟨v, rfl⟩ | ⟨rfl, -⟩ |
      ⟨bytes, -, rfl⟩ | rfl
    · cases hcmd
    · exact ⟨rfl, rfl, rfl, rfl⟩
    · exact ⟨rfl, rfl, rfl, rfl⟩
    · exact ⟨rfl, rfl, rfl, rfl⟩
    · exact absurd rfl hreset
    · exact ⟨rfl, rfl, rfl, rfl⟩
    · exact ⟨rfl, rfl, rfl, rfl⟩

/-- Settles O14: the payload as a whole has no value, and every operation reads it right after the check of
`ILEN`. -/
theorem payloadWithoutValueFaults : Obligations.PayloadWithoutValueFaults := by
  intro i s a hi hfits ha hread
  obtain ⟨unit, -, hexec⟩ := exec_command hi
  have hpayload : s.payload = none := Memory.readRange_eq_none s.ibuf ha (by rwa [Nat.zero_add])
  rw [hexec, State.withPayload_none hfits hpayload]

/-- `STATUS` after an error, as the field `ERR` above `DONE` (R26). -/
theorem statusError_eq (e : Err) : statusError e = 0x02#8 ||| (e.code.setWidth 8 <<< 2) := by
  cases e <;> rfl

/-- Settles O16: an operation's next state is an error raised, with a code from 1 to 4, or a result delivered, with
code 0. -/
theorem statusAfterEveryOperation : Obligations.StatusAfterEveryOperation := by
  intro i s t hi h
  rcases exec_command_next hi h with ⟨e, rfl⟩ | ⟨bytes, rfl, -⟩
  · exact ⟨e.code, e.code_range.2, statusError_eq e, fun _ => ⟨rfl, rfl⟩⟩
  · exact ⟨0#3, Nat.zero_le 4, rfl, fun h0 => absurd rfl h0⟩

/-! ### The accesses refused -/

/-- No operation and no block of the decoder is refused. -/
theorem exec_fetched_not_refused {s s' : State} {m : HostMove} {i : Instr} (h : hostMove s m = .run i s')
    (r : Refusal) :
    exec i s' ≠ .refused r := by
  rcases hostMove_run h with ⟨v, -, -, hdecode, -⟩ | ⟨-, -, -, after, hblock⟩
  · obtain ⟨unit, -, hexec⟩ := exec_command (isCommand_of_decodeCommand hdecode)
    rw [hexec]
    exact State.withPayload_not_refused _ _ r
  · obtain ⟨hi, hw, -⟩ := decodeToken_ok hblock
    obtain ⟨t, -, hexec⟩ := exec_token hi hw
    rw [hexec]
    exact State.replayStep_not_refused _ _ _ r

/-- A command word is never refused: it starts an operation or raises `ILLOP`. -/
theorem acceptCommand_not_refused (s : State) (c : Byte) (r : Refusal) : finish (acceptCommand s c) ≠ .refused r := by
  cases hdecode : decodeCommand c with
  | error e =>
    rw [acceptCommand_of_error hdecode]
    simp
  | ok i =>
    have hmove := (hostMove_writeReg_cmd s c).trans (acceptCommand_of_ok hdecode)
    rw [acceptCommand_of_ok hdecode]
    exact exec_fetched_not_refused hmove r

/-- A decoder move is never refused: it runs a block, faults or changes nothing. -/
theorem nextBlock_not_refused (s : State) (r : Refusal) : finish (nextBlock s) ≠ .refused r := by
  rcases Nat.lt_or_ge s.dec.i s.dec.stream.length with hlt | hge
  · cases hblock : decodeToken s.cfg.extPos (s.dec.stream.drop s.dec.i) with
    | error e =>
      rw [nextBlock_of_truncated hlt hblock]
      simp
    | ok block =>
      have hmove : hostMove s .replayBlock = .run block.1 s := nextBlock_of_block hlt hblock
      rw [nextBlock_of_block hlt hblock]
      exact exec_fetched_not_refused hmove r
  · rw [nextBlock_of_usedUp hge]
    simp

/-- A register write is refused exactly when there is no such register or the value is too wide for it (R65, log
entry 19). -/
theorem writeReg_refused_iff (s : State) (r v : Nat) :
    (∃ e, finish (writeReg s r v) = .refused e) ↔ (HostMove.writeReg r v).legal s.cfg = false := by
  rcases r with _ | _ | _ | _ | r
  · by_cases hv : v < 256 <;> simp [writeReg, HostMove.legal, hv, acceptCommand_not_refused]
  · by_cases hv : v < 256 <;> simp [writeReg, HostMove.legal, hv]
  · by_cases hv : v < 2 ^ s.cfg.lenW <;> simp [writeReg, HostMove.legal, hv]
  · by_cases hv : v < 2 ^ s.cfg.lenW <;> simp [writeReg, HostMove.legal, hv]
  · simp [writeReg, HostMove.legal]

/-- A register read is refused exactly when there is no such register (R65). -/
theorem readReg_refused_iff (s : State) (r : Nat) :
    (∃ e, readReg s r = .refused e) ↔ (HostMove.readReg r).legal s.cfg = false := by
  rcases r with _ | _ | _ | _ | r
  all_goals simp [readReg, State.readReg, HostMove.legal]

/-- A read of `OBUF` is refused exactly when there is no such byte (R65); a byte without a value faults instead. -/
theorem readObuf_refused_iff (s : State) (i : Nat) :
    (∃ e, readObuf s i = .refused e) ↔ (HostMove.readObuf i).legal s.cfg = false := by
  by_cases hi : i < s.cfg.obufCap
  · cases hb : s.obuf.read i <;> simp [readObuf, HostMove.legal, hi, hb]
  · simp [readObuf, HostMove.legal, hi]

/-- The moves refused are those that are no access to ENC (R65, log entries 9 and 19). -/
theorem hostMove_refused_iff (s : State) (m : HostMove) :
    (∃ e, finish (hostMove s m) = .refused e) ↔ m.legal s.cfg = false := by
  cases m with
  | writeReg r v => exact writeReg_refused_iff s r v
  | readReg r => exact readReg_refused_iff s r
  | writeIbuf i b => by_cases hi : i < s.cfg.ibufCap <;> simp [hostMove, writeIbuf, HostMove.legal, hi]
  | readIbuf i => simp [hostMove, HostMove.legal]
  | writeObuf i b => by_cases hi : i < s.cfg.obufCap <;> simp [hostMove, writeObuf, HostMove.legal, hi]
  | readObuf i => exact readObuf_refused_iff s i
  | reset => simp [hostMove, HostMove.legal]
  | loadStream bytes => simp [hostMove, HostMove.legal]
  | replayBlock => simp [hostMove, HostMove.legal, nextBlock_not_refused]

/-- Settles O11: the step is the move, and each kind of move has its guard. -/
theorem onlyForeignAccessesAreRefused : Obligations.OnlyForeignAccessesAreRefused := by
  intro s m rest hscript
  rw [step_of_script hscript]
  exact hostMove_refused_iff _ m

end Sys2Proof.Machine


/-!
PROOFS of the family `other`, the laws of the checksum (R93, R94), of the negator (R102) and of the waveform (R112).
-/
namespace Sys2Proof.Machine

/-- A byte and the distance of its value to 256 add up to 0. -/
theorem add_ofNat_sub_toNat (x : Byte) : x + BitVec.ofNat 8 ((256 - x.toNat) % 256) = 0#8 := by
  have hx := x.isLt
  apply BitVec.eq_of_toNat_eq
  simp only [BitVec.toNat_add, BitVec.toNat_ofNat]
  omega

/-- Settles O21: the checksum byte brings the accumulator to 0, whose checksum is 0. -/
theorem checksumSelfValidates : Obligations.ChecksumSelfValidates := by
  intro s
  have hsum : chkSum (s ++ [chk s]) = 0#8 := by
    rw [chkSum_concat, chk, rev8_rev8, add_ofNat_sub_toNat]
  rw [chk, hsum]
  rfl

/-- Settles O22: the checksum is a function of a sum over the bytes. -/
theorem checksumIgnoresOrder : Obligations.ChecksumIgnoresOrder := by
  intro s t hperm
  rw [chkIsReversedNegatedSum s, chkIsReversedNegatedSum t, (hperm.map _).sum_eq]

/-- The bits of a complemented byte are the inverted bits (R102). -/
theorem byteBits_xor_0xFF (b : Byte) : byteBits (b ^^^ 0xFF#8) = (byteBits b).map (!·) := by
  rw [xor_0xFF_eq_not, byteBits, byteBits, List.map_map]
  refine List.map_congr_left fun j _ => ?_
  rw [BitVec.getLsbD_not, decide_eq_true (by omega : 7 - j < 8), Bool.true_and, Function.comp]

/-- Bit reversal commutes with the complement (R102). -/
theorem rev8_xor_0xFF (b : Byte) : rev8 (b ^^^ 0xFF#8) = rev8 b ^^^ 0xFF#8 := by
  refine BitVec.eq_of_getLsbD_eq fun i hi => ?_
  rw [getLsbD_rev8 _ hi, xor_0xFF_eq_not, xor_0xFF_eq_not, BitVec.getLsbD_not, BitVec.getLsbD_not, getLsbD_rev8 _ hi,
    decide_eq_true hi, decide_eq_true (by omega : 7 - i < 8)]

/-- Settles O25: each law holds byte by byte. -/
theorem negInvertsTheBitString : Obligations.NegInvertsTheBitString := by
  refine ⟨fun s => ?_, fun s t => List.map_append, fun s => ?_, rev8_xor_0xFF⟩
  · simp [neg, Function.comp_def]
  · rw [bits, bits, neg, List.flatMap_map, List.map_flatMap]
    exact List.flatMap_congr fun b _ => byteBits_xor_0xFF b

/-- A bit's two durations stand behind the header's two (R106, R107). -/
theorem wave_timingTable_getElem? {bs : List Bool} {j k : Nat} {b : Bool} (hb : bs[j]? = some b) (hk : k < 2) :
    (wave timingTable bs)[2 + 2 * j + k]? = (pulsesOfBit timingTable b)[k]? := by
  have hhdr : timingTable.hdr.length = 2 := rfl
  have hj : j < bs.length := (List.getElem?_eq_some_iff.1 hb).1
  have hlen := length_flatMap_of_length pulsesOfBit_timingTable_length bs
  rw [wave, List.append_assoc, List.getElem?_append_right (by omega), List.getElem?_append_left (by omega), hhdr,
    show 2 + 2 * j + k - 2 = 2 * j + k by omega,
    getElem?_flatMap_of_length pulsesOfBit_timingTable_length hb hk]

/-- Settles O30: every bit has a mark and a space, by the timing table 588 and the bit's. -/
theorem spaceCarriesTheBit : Obligations.SpaceCarriesTheBit := by
  intro bs j b hb
  refine ⟨(wave_timingTable_getElem? hb (k := 0) (by omega)).trans ?_,
    (wave_timingTable_getElem? hb (k := 1) (by omega)).trans ?_⟩
  · cases b <;> rfl
  · cases b <;> rfl

end Sys2Proof.Machine


/-!
PROOFS of the family `other`, the compressor: every level's tokens replay to the payload (R154), their sizes against
level 0 and against every other token sequence (R155), and a run of equal bytes (R158).
-/
namespace Sys2Proof.Machine

/-! ### Replaying a payload's own bytes -/

/-- A copy whose bytes are those of `p` at its place goes on in `p` (R127, R141). -/
theorem copyBytes_take {p : List Byte} {dist : Nat} (hd : 1 ≤ dist) (k : Nat) {pos : Nat} (hdist : dist ≤ pos)
    (hend : pos + k ≤ p.length) (hagree : ∀ j, j < k → p[pos + j]? = p[pos - dist + j]?) :
    copyBytes dist k (p.take pos) = p.take (pos + k) := by
  induction k generalizing pos with
  | zero => rfl
  | succ k ih =>
    have hlen : (p.take pos).length = pos := List.length_take_of_le (by omega)
    have hbyte : (p.take pos).getD ((p.take pos).length - dist) 0#8 = p[pos] := by
      have h0 := hagree 0 (Nat.succ_pos k)
      rw [Nat.add_zero, Nat.add_zero, List.getElem?_eq_getElem (by omega)] at h0
      rw [hlen, List.getD_eq_getElem?_getD, List.getElem?_take_of_lt (by omega), ← h0, Option.getD_some]
    rw [copyBytes_succ, hbyte, List.take_append_getElem (by omega), ih (by omega) (by omega), Nat.add_assoc,
      Nat.add_comm 1]
    intro j hj
    rw [show pos + 1 + j = pos + (j + 1) by omega, hagree (j + 1) (by omega)]
    congr 1
    omega

/-- A match of the payload, or its first part, replays to the payload's bytes there (R127, R141). -/
theorem replayToken_dist_take {p : List Byte} {pos len dist : Nat} (hd : 1 ≤ dist) (hdist : dist ≤ pos)
    (hlen : len ≤ matchLen p pos dist) (hpos : pos ≤ p.length) :
    replayToken (.dist len dist) (p.take pos) = some (p.take (pos + len)) := by
  have hle := hlen.trans (matchLen_le p pos dist)
  have htake : (p.take pos).length = pos := List.length_take_of_le hpos
  refine (replayToken_eq_some_iff _ _ _).2 (.inr ⟨len, dist, rfl, hd, by omega, ?_⟩)
  exact (copyBytes_take hd len hdist (by omega) fun j hj => getElem?_of_lt_matchLen (by omega)).symm

/-- The payload up to `i` and its bytes from `i` to `j` are the payload up to `j` (R6). -/
theorem take_append_slice (p : List Byte) {i j : Nat} (hij : i ≤ j) : p.take i ++ slice p i j = p.take j := by
  rw [slice, ← List.take_add, Nat.add_sub_cancel' hij]

/-- The greedy loop's tokens replay to the payload (R154). -/
theorem replay_greedy {p : List Byte} {select : List Byte → Nat → Option Match}
    (hselect : ∀ pos m, select p pos = some m → IsMatchAt p pos m) : replay (greedy p select) = some p := by
  refine greedy_induction (motive := fun _ litStart ts => replayFrom ts (p.take litStart) = some p)
    hselect ?finish ?skip ?take
  case finish =>
    intro litStart hlit
    rw [replayFrom_lits, take_append_slice p hlit, List.take_length]
  case skip => exact fun _ _ _ _ _ ih => ih
  case take =>
    intro pos litStart m ts hlit hpos hm _ ih
    obtain ⟨hd, hcap, hlen⟩ := hm
    rw [replayFrom_append, replayFrom_lits, take_append_slice p hlit, Option.bind_some, replayFrom,
      replayToken_dist_take hd (by omega) hlen.le hpos.le]
    exact ih

/-- An edge's token replays to the payload's bytes along the edge (R150, R153). -/
theorem replayToken_edgeToken {p : List Byte} {i : Nat} {e : Edge} (he : e ∈ edgesFrom p i) :
    replayToken (edgeToken p (i, e.len, e.dist)) (p.take i) = some (p.take (i + e.len)) := by
  obtain ⟨-, hend⟩ := edgesFrom_bounds he
  rcases List.mem_append.1 he with he | he
  · obtain ⟨m, hm, -, hl, hd, -⟩ := (mem_matchEdges p i e).1 he
    obtain ⟨hbest, -⟩ := (usable_eq_some_iff _ m).1 hm
    obtain ⟨hpos, hcap, hlen⟩ := isMatchAt_of_bestMatch hbest
    rw [edgeToken, hd, if_neg (by omega)]
    exact replayToken_dist_take hpos (by omega) (hlen ▸ hl) (by omega)
  · obtain ⟨-, -, hd, -⟩ := (mem_literalEdges p i e).1 he
    rw [edgeToken, if_pos hd, replayToken, take_append_slice p (Nat.le_add_right _ _)]

/-- The tokens of level 3 replay to the payload (R154). -/
theorem replay_tokens3 (p : List Byte) : replay (tokens3 p) = some p := by
  refine walkBack_induction (p := p)
    (motive := fun i path => replayFrom (path.map (edgeToken p)) (p.take i) = some p) ?last ?edge
  case last => rw [List.take_length]; rfl
  case edge =>
    intro i e _ _ path he _ _ _ ih
    rw [List.map_cons, replayFrom, replayToken_edgeToken he]
    exact ih

/-- Every level's tokens replay to the payload (R154). -/
theorem replay_tokens (k : Fin 4) (p : List Byte) : replay (tokens k p) = some p :=
  match k with
  | 0 => replayFrom_lits p []
  | 1 => replay_greedy fun _ _ => isMatchAt_of_firstMatch
  | 2 => replay_greedy fun _ _ => isMatchAt_of_bestMatch
  | 3 => replay_tokens3 p

/-- Settles O51: every level's tokens are within FMT's contract and replay to the payload, and the encoding of such
tokens decodes to what they replay to. -/
theorem everyLevelRoundTrips : Obligations.EveryLevelRoundTrips := fun pos k p =>
  ⟨tokens_inRange k p, replay_tokens k p, decodeOfEncodeIsReplay pos _ _ (tokens_inRange k p) (replay_tokens k p)⟩

/-- Settles O52: an admissible output buffer has room for every level's stream, which round-trips. -/
theorem compResultDecodesToThePayload : Obligations.CompResultDecodesToThePayload := by
  intro s k p hadm hfits hp
  obtain ⟨-, -, stream, hstream, hdecode⟩ := everyLevelRoundTrips s.cfg.extPos k p
  obtain ⟨stream', hstream', hroom, -, -⟩ := (compDeliversTheEncodedTokens s k).2 p hfits hp
  obtain rfl := Except.ok.inj (hstream.symm.trans hstream')
  refine ⟨s.deliver stream, stream, ?_, statusOk_value, State.deliver_result s stream, hdecode⟩
  rw [exec_compInstr, State.compress_of_encodes hfits hp hstream, State.deliverOrOvf_fits (hroom hadm)]

/-! ### The sizes of the levels -/

/-- Settles O53: level 0 is a literal run of the payload, and no level takes more. -/
theorem noLevelExceedsLevelZero : Obligations.NoLevelExceedsLevelZero :=
  fun k p => ⟨sum_cost_tokens_le k p, sum_cost_lits p⟩

/-- Settles O55: node `n` is reached, and the reconstruction from it adds up to its cost. -/
theorem levelThreeSizeIsFinalCost : Obligations.LevelThreeSizeIsFinalCost := by
  intro p
  obtain ⟨final, hfinal, -⟩ := exists_costTable_entry p le_rfl
  exact ⟨final, Option.join_eq_some_iff.1 hfinal, sum_cost_tokens3 hfinal⟩

/-- What tokens replay to begins with the output they start from. -/
theorem replayFrom_prefix {ts : List Token} {out out' : List Byte} (h : replayFrom ts out = some out') :
    out <+: out' := by
  induction ts generalizing out with
  | nil => exact Option.some.inj h ▸ List.prefix_rfl
  | cons t ts ih =>
    obtain ⟨mid, hmid, hrest⟩ := replayFrom_cons_eq_some h
    exact (replayToken_prefix hmid).trans (ih hrest)

/-- A token within FMT's contract that replays along the payload has an edge of its cost there: a literal by its
length, a match because the best match at the place is no shorter (R150). -/
theorem exists_edge_of_replayToken {p : List Byte} {t : Token} {i j : Nat} (ht : t.inRange = true)
    (hj : j ≤ p.length) (hi : i ≤ p.length) (h : replayToken t (p.take i) = some (p.take j)) :
    ∃ e ∈ edgesFrom p i, i + e.len = j ∧ e.cost = t.cost := by
  have hilen : (p.take i).length = i := List.length_take_of_le hi
  have hjlen : (p.take j).length = j := List.length_take_of_le hj
  rcases (replayToken_eq_some_iff _ _ _).1 h with ⟨bytes, rfl, hout⟩ | ⟨len, dist, rfl, hd, hdist, hout⟩
  · obtain ⟨hmin, hmax⟩ := (inRange_lit_iff bytes).1 ht
    have hlen : j = i + bytes.length := by rw [← hjlen, hout, List.length_append, hilen]
    refine ⟨⟨bytes.length, 0, 1 + bytes.length⟩, List.mem_append_right _ ?_, hlen.symm, rfl⟩
    refine (mem_literalEdges p i _).2 ⟨hmin, ?_, rfl, rfl⟩
    simp only [Config.maxLit]
    omega
  · obtain ⟨hmin, hmax, -, hw⟩ := (inRange_dist_iff len dist).1 ht
    have hlen : j = i + len := by rw [← hjlen, hout, copyBytes_length, hilen]
    rw [hilen] at hdist
    have hmatch : len ≤ matchLen p i dist := by
      refine le_matchLen (by simp only [Config.maxMatch]; omega) fun k hk => ?_
      have hnew := copyBytes_getElem_new hd len (p.take i) (by omega) hk
      rw [← hout, hilen, List.getElem?_take_of_lt (by omega), List.getElem?_take_of_lt (by omega)] at hnew
      rw [hnew]
      congr 1
      omega
    obtain ⟨m, hm, hbest⟩ := exists_bestMatch p (pos := i) (by omega)
    have hlong := hmatch.trans (hbest.longest dist hd (by omega))
    refine ⟨⟨len, m.dist, (Token.dist len dist).cost⟩, List.mem_append_left _ ?_, hlen.symm, rfl⟩
    exact (mem_matchEdges p i _).2 ⟨m, (usable_eq_some_iff _ m).2 ⟨hm, hmin.trans hlong⟩, hmin, hlong, rfl, rfl⟩

/-- Tokens that replay from a node of the table to the payload's end cost no less than the table saves from there on:
each follows an edge, and no edge improves the finished table (R151, R155). -/
theorem final_cost_le {p : List Byte} {final : Node} (hfinal : (costTable p)[p.length]?.join = some final)
    {ts : List Token} (hts : ∀ t ∈ ts, t.inRange = true) {i : Nat} (hi : i ≤ p.length) {node : Node}
    (hnode : (costTable p)[i]?.join = some node) (hreplay : replayFrom ts (p.take i) = some p) :
    final.cost ≤ node.cost + (ts.map Token.cost).sum := by
  induction ts generalizing i node with
  | nil =>
    have hlen := congrArg List.length (Option.some.inj hreplay)
    rw [List.length_take_of_le hi] at hlen
    subst hlen
    obtain rfl := Option.some.inj (hnode.symm.trans hfinal)
    exact Nat.le_add_right _ _
  | cons t ts ih =>
    obtain ⟨ht, hrest⟩ := List.forall_mem_cons.1 hts
    obtain ⟨mid, hmid, htail⟩ := replayFrom_cons_eq_some hreplay
    have hprefix := replayFrom_prefix htail
    rw [List.prefix_iff_eq_take.1 hprefix] at hmid htail
    obtain ⟨e, he, hend, hcost⟩ := exists_edge_of_replayToken ht hprefix.length_le hi hmid
    obtain ⟨hlen, hfit⟩ := edgesFrom_bounds he
    obtain ⟨node', hnode', hle⟩ := (relaxed_costTable p).closed i e node
      (mem_relaxations.2 ⟨by omega, he⟩) hnode
    rw [hend] at hnode'
    have htailCost := ih hrest hprefix.length_le hnode' htail
    rw [List.map_cons, List.sum_cons]
    omega

/-- Settles O54: the level-3 size is the final cost of node `n`, and any token sequence is a path of edges from node
0, whose cost is 0. -/
theorem levelThreeIsOptimal : Obligations.LevelThreeIsOptimal := by
  intro p ts hts hreplay
  obtain ⟨final, hfinal, -⟩ := exists_costTable_entry p le_rfl
  have hle := final_cost_le hfinal hts (Nat.zero_le _) (relaxed_costTable p).root hreplay
  rw [Nat.zero_add] at hle
  exact (sum_cost_tokens3 hfinal).trans_le hle

/-- The payload of V16, on which taking the longest match costs a byte (C3). -/
def longestMatchCosts : List Byte := [0#8, 1#8, 0#8, 1#8, 0#8, 0#8, 1#8, 0#8, 1#8, 0#8, 1#8, 0#8]

/-- Settles O56: the payload of V16 takes 9 bytes at level 1 and 10 at level 2. -/
theorem levelTwoCanExceedLevelOne : Obligations.LevelTwoCanExceedLevelOne := by
  refine ⟨longestMatchCosts, ?_⟩
  decide

/-! ### A run of equal bytes -/

/-- In a run of equal bytes the match at distance 1 from the second byte reaches the run's end (R158). -/
theorem matchLen_replicate (x : Byte) {r : Nat} (h1 : 1 ≤ r) (hr : r ≤ 265) :
    matchLen (List.replicate r x) 1 1 = r - 1 := by
  refine le_antisymm ((matchLen_le _ _ _).trans (by simp)) (le_matchLen ?_ fun j hj => ?_)
  · simp only [Config.maxMatch, List.length_replicate]
    omega
  · rw [List.getElem?_replicate, List.getElem?_replicate, if_pos (by omega), if_pos (by omega)]

/-- At the second byte `FirstMatch` takes the match at distance 1 (R143). -/
theorem firstMatch_replicate (x : Byte) {r : Nat} (h4 : 4 ≤ r) (hr : r ≤ 265) :
    firstMatch (List.replicate r x) 1 = some ⟨r - 1, 1⟩ := by
  refine (firstMatch_eq_some_iff _ _ _).2 ⟨le_rfl, by simp, (matchLen_replicate x (by omega) hr).symm, ?_, ?_⟩
  · simp only; omega
  · intro D h1 hD
    simp only at hD
    omega

/-- At the second byte `BestMatch` takes the match at distance 1, the only candidate (R144). -/
theorem bestMatch_replicate (x : Byte) {r : Nat} (h4 : 4 ≤ r) (hr : r ≤ 265) :
    bestMatch (List.replicate r x) 1 = some ⟨r - 1, 1⟩ := by
  have hlen := matchLen_replicate x (show 1 ≤ r by omega) hr
  refine (bestMatch_eq_some_iff _ _ _).2 ⟨le_rfl, by simp, hlen.symm, fun D h1 hD => ?_, fun D h1 hD => ?_⟩
  · obtain rfl : D = 1 := by omega
    exact hlen.le
  · simp only at hD
    omega

/-- The greedy loop at a position without a usable match (R146). -/
theorem greedyLoop_skip {select : Nat → Option Match} {p : List Byte} {pos : Nat} (hpos : pos < p.length)
    (hnone : usable (select pos) = none) (fuel litStart : Nat) :
    greedyLoop select p (fuel + 1) pos litStart = greedyLoop select p fuel (pos + 1) litStart := by
  rw [greedyLoop, if_pos hpos, hnone]

/-- The greedy loop at a position with a usable match (R146). -/
theorem greedyLoop_take {select : Nat → Option Match} {p : List Byte} {pos : Nat} {m : Match} (hpos : pos < p.length)
    (hsome : usable (select pos) = some m) (fuel litStart : Nat) :
    greedyLoop select p (fuel + 1) pos litStart = lits (slice p litStart pos) ++
      .dist m.len m.dist :: greedyLoop select p fuel (pos + m.len) (pos + m.len) := by
  rw [greedyLoop, if_pos hpos, hsome]

/-- The greedy loop at the payload's end leaves the pending literals (R146). -/
theorem greedyLoop_end (select : Nat → Option Match) {p : List Byte} {pos : Nat} (hpos : p.length ≤ pos)
    (fuel litStart : Nat) : greedyLoop select p fuel pos litStart = lits (slice p litStart pos) := by
  cases fuel with
  | zero => rfl
  | succ fuel => rw [greedyLoop, if_neg (Nat.not_lt.2 hpos)]

/-- A greedy level without a match at the first byte and with one over all the rest at the second (R146). -/
theorem greedy_of_match_at_one {select : List Byte → Nat → Option Match} {p : List Byte} (h4 : 4 ≤ p.length)
    (hfirst : select p 0 = none) (hsecond : select p 1 = some ⟨p.length - 1, 1⟩) :
    greedy p select = lits (slice p 0 1) ++ [.dist (p.length - 1) 1] := by
  have hnone : usable (select p 0) = none := by rw [hfirst]; rfl
  have hsome : usable (select p 1) = some ⟨p.length - 1, 1⟩ :=
    (usable_eq_some_iff _ _).2 ⟨hsecond, by simp only [Config.minMatch]; omega⟩
  have hempty : slice p (1 + (p.length - 1)) (1 + (p.length - 1)) = [] := by simp [slice]
  obtain ⟨fuel, hfuel⟩ : ∃ fuel, p.length = fuel + 1 + 1 := ⟨p.length - 2, by omega⟩
  calc greedy p select = greedyLoop (select p) p (fuel + 1 + 1) 0 0 := by rw [greedy, hfuel]
    _ = greedyLoop (select p) p (fuel + 1) 1 0 := greedyLoop_skip (by omega) hnone _ _
    _ = lits (slice p 0 1) ++ .dist (p.length - 1) 1 ::
        greedyLoop (select p) p fuel (1 + (p.length - 1)) (1 + (p.length - 1)) :=
      greedyLoop_take (by omega) hsome _ _
    _ = lits (slice p 0 1) ++ [.dist (p.length - 1) 1] := by
      rw [greedyLoop_end _ (by omega), hempty, lits_nil]

/-- The tokens of a run of equal bytes at a greedy level that takes the match at its second byte (R158). -/
theorem greedy_replicate {select : List Byte → Nat → Option Match} {x : Byte} {r : Nat} (h4 : 4 ≤ r)
    (hfirst : select (List.replicate r x) 0 = none)
    (hsecond : select (List.replicate r x) 1 = some ⟨r - 1, 1⟩) :
    greedy (List.replicate r x) select = [.lit [x], .dist (r - 1) 1] := by
  have hlen : (List.replicate r x).length = r := List.length_replicate
  have hslice : slice (List.replicate r x) 0 1 = [x] := by
    rw [slice, List.drop_zero, List.take_replicate, Nat.min_eq_left (by omega)]
    rfl
  rw [greedy_of_match_at_one (by rwa [hlen]) hfirst (by rwa [hlen]), hslice, hlen]
  rfl

/-- Settles O57: no byte stands before the first one, and at the second both selections find the match over the rest
of the run. -/
theorem equalRunIsLiteralAndMatch : Obligations.EqualRunIsLiteralAndMatch := fun x _ h4 hr =>
  ⟨greedy_replicate h4 rfl (firstMatch_replicate x h4 hr), greedy_replicate h4 rfl (bestMatch_replicate x h4 hr)⟩

end Sys2Proof.Machine


/-!
PROOFS of the family `other`, the host: rounding (R172), the frame builder (R171, R174), and the pipeline as a script on
the machine (R175).
-/
namespace Sys2Proof.Machine

/-! ### The frame builder -/

/-- The rounded number is the quotient by the denominator, or one more, as the remainder has it (R172). -/
theorem roundNearest_cases (m : RoundMode) (num : Int) (den : Nat) :
    (roundNearest m num den = num / den ∧ 2 * (num % den) ≤ den) ∨
      (roundNearest m num den = num / den + 1 ∧ den ≤ 2 * (num % den)) := by
  unfold roundNearest
  by_cases hbelow : 2 * (num % (den : Int)) < den
  · exact .inl ⟨if_pos hbelow, hbelow.le⟩
  · have hge := Int.not_lt.1 hbelow
    by_cases habove : (den : Int) < 2 * (num % den)
    · exact .inr ⟨(if_neg hbelow).trans (if_pos habove), hge⟩
    · have hle := Int.not_lt.1 habove
      simp only [if_neg hbelow, if_neg habove]
      cases m with
      | halfEven =>
        by_cases heven : num / (den : Int) % 2 = 0
        · exact .inl ⟨if_pos heven, hle⟩
        · exact .inr ⟨if_neg heven, hge⟩
      | halfUp =>
        by_cases hup : 0 ≤ num ∨ Config.halfUpNegativeTowardPlus = true
        · exact .inr ⟨if_pos hup, hge⟩
        · exact .inl ⟨if_neg hup, hle⟩

/-- Settles O59: the quotient is below the number by the remainder, and the next integer above it by the rest of the
denominator. -/
theorem roundingIsToANearestInteger : Obligations.RoundingIsToANearestInteger := by
  intro m num den hden
  have hdiv := Int.mul_ediv_add_emod num den
  have hnonneg := Int.emod_nonneg num (show (den : Int) ≠ 0 by omega)
  have hlt := Int.emod_lt_of_pos num (show (0 : Int) < den by omega)
  rcases roundNearest_cases m num den with ⟨hq, hr⟩ | ⟨hq, hr⟩
  · have hdiff : num / den * den - num = -(num % den) := by linarith [mul_comm (den : Int) (num / den)]
    rw [hq, hdiff, abs_neg, abs_of_nonneg hnonneg]
    exact hr
  · have hdiff : (num / den + 1) * den - num = den - num % den := by linarith [mul_comm (den : Int) (num / den)]
    rw [hq, hdiff, abs_of_nonneg (by omega)]
    omega

/-- An integer is its own rounding (R172). -/
theorem roundNearest_one (m : RoundMode) (n : Int) : roundNearest m n 1 = n := by
  simp [roundNearest]

/-- A byte from 0 on is the value byte under either clamping (R173). -/
theorem valueByte_natCast (c : ValueClamp) (n : Nat) : valueByte c n = BitVec.ofNat 8 n := by
  cases c <;> simp [valueByte]

/-- Settles O60: the range check is the two bounds; an integer temperature is its own rounding, and one above it is not
negative, so the clamping leaves it. -/
theorem frameBuilderRangeAndValue : Obligations.FrameBuilderRangeAndValue := by
  intro p hlower
  refine ⟨fun num den hden => ?_, fun n hn => ?_⟩
  · have hrange : tempInRange p.lowerInclusive num den = true ↔ -30 * (den : Int) ≤ num ∧ num < 70 * (den : Int) := by
      simp [tempInRange, hlower]
    rw [← hrange, buildFrame, if_neg (by omega)]
    by_cases h : tempInRange p.lowerInclusive num den = true <;> simp [h]
  · have hrange : tempInRange p.lowerInclusive ((n : Int) - 1) 1 = true := by
      simp only [tempInRange, hlower, if_true, Bool.and_eq_true, decide_eq_true_eq]
      omega
    rw [buildFrame, if_neg Nat.one_ne_zero, if_pos hrange, roundNearest_one, Int.sub_add_cancel, valueByte_natCast]
    rfl

/-! ### Loading a payload -/

/-- The bytes `bs` written one after another from index `a` on. -/
def Memory.writeBytes : Memory → Nat → List Byte → Memory
  | m, _, [] => m
  | m, a, b :: bs => (m.write a b).writeBytes (a + 1) bs

/-- Bytes written from `a` on leave the bytes before `a` alone. -/
theorem Memory.read_writeBytes_before (m : Memory) {a j : Nat} (bs : List Byte) (h : j < a) :
    (m.writeBytes a bs).read j = m.read j := by
  induction bs generalizing m a with
  | nil => rfl
  | cons b bs ih => rw [Memory.writeBytes, ih _ (Nat.lt_succ_of_lt h), Memory.read_write_other m b h.ne]

/-- Bytes written from `a` on read back in order. -/
theorem Memory.read_writeBytes (m : Memory) (a : Nat) {bs : List Byte} {i : Nat} (hi : i < bs.length) :
    (m.writeBytes a bs).read (a + i) = bs[i]? := by
  induction bs generalizing m a i with
  | nil => simp at hi
  | cons b bs ih =>
    rw [Memory.writeBytes]
    cases i with
    | zero =>
      exact (Memory.read_writeBytes_before _ bs (Nat.lt_add_one a)).trans (Memory.read_write_same m a b)
    | succ i =>
      rw [← Nat.add_assoc, Nat.add_right_comm, ih _ _ (Nat.lt_of_succ_lt_succ hi), List.getElem?_cons_succ]

/-- The host's moves in two parts, where the first part ends in a next state. -/
theorem State.drive_append {s t : State} {ms : List HostMove} (h : s.drive ms = .next t) (ms' : List HostMove) :
    s.drive (ms ++ ms') = t.drive ms' := by
  induction ms generalizing s with
  | nil =>
    obtain rfl := Host.Outcome.next.inj h
    rfl
  | cons m ms ih =>
    cases hm : finish (hostMove s m) with
    | next u =>
      rw [State.drive_cons_next hm] at h
      rw [List.cons_append, State.drive_cons_next hm, ih h]
    | fault f => rw [State.drive_cons_fault hm] at h; cases h
    | refused r => rw [State.drive, step_script_cons, hm] at h; cases h

/-- Writing bytes of `IBUF` in order (R21, R57). -/
theorem State.drive_writeIbufs {s : State} {n : Nat} {p : List Byte} (h : n + p.length ≤ s.cfg.ibufCap) :
    s.drive (p.mapIdx fun i b => .writeIbuf (n + i) b) = .next { s with ibuf := s.ibuf.writeBytes n p } := by
  induction p generalizing s n with
  | nil => rfl
  | cons b p ih =>
    rw [List.length_cons] at h
    have hmove : finish (hostMove s (.writeIbuf n b)) = .next { s with ibuf := s.ibuf.write n b } := by
      rw [hostMove, writeIbuf, if_pos (by omega), finish_done]
    have hshift : (fun i b => HostMove.writeIbuf (n + (i + 1)) b) = fun i b => HostMove.writeIbuf (n + 1 + i) b := by
      funext i b
      rw [Nat.add_assoc, Nat.add_comm 1]
    rw [List.mapIdx_cons, hshift, Nat.add_zero, State.drive_cons_next hmove]
    exact ih (s := { s with ibuf := s.ibuf.write n b }) (by simp only; omega)

/-- `ILEN` is wide enough for every length up to the input buffer's capacity (R4, R23). -/
theorem lt_two_pow_lenW {c : Config} {n : Nat} (h : n ≤ c.ibufCap) : n < 2 ^ c.lenW :=
  (h.trans (Nat.le_max_left _ _)).trans_lt Nat.lt_log2_self

/-- The machine has the parameters `c` and a legal payload `p`. -/
structure State.Holds (s : State) (c : Config) (p : List Byte) : Prop where
  cfg_eq : s.cfg = c
  ilen_le : s.ilen ≤ s.cfg.ibufCap
  payload_eq : s.payload = some p

/-- The moves of a load put the payload into the machine (R212). -/
theorem State.drive_loadMoves {s : State} {p : List Byte} (h : p.length ≤ s.cfg.ibufCap) :
    ∃ t, s.drive (loadMoves p) = .next t ∧ t.Holds s.cfg p := by
  have hbytes : s.drive (p.mapIdx fun i b => .writeIbuf i b) = .next { s with ibuf := s.ibuf.writeBytes 0 p } := by
    simpa using State.drive_writeIbufs (s := s) (n := 0) (p := p) (by omega)
  have hlen : finish (hostMove { s with ibuf := s.ibuf.writeBytes 0 p } (.writeReg 2 p.length)) =
      .next { s with ibuf := s.ibuf.writeBytes 0 p, ilen := p.length } := by
    rw [hostMove, writeReg, if_pos (lt_two_pow_lenW h), finish_done]
  refine ⟨{ s with ibuf := s.ibuf.writeBytes 0 p, ilen := p.length }, ?_, rfl, h, ?_⟩
  · rw [loadMoves, State.drive_append hbytes, State.drive_cons_next hlen, State.drive]
  · exact (State.payload_eq_some_iff _ p).2 ⟨rfl, fun i hi => by simpa using Memory.read_writeBytes s.ibuf 0 hi⟩

/-! ### The operations of the script -/

/-- An operation of the script whose moves put the payload into the machine, and which delivers on that payload: the
host copies the result, and the payload stays (R35, R175). -/
theorem runOperation_of_drive {moves : List HostMove} {s u : State} {c : Config} {p bytes : List Byte} {cmd : Byte}
    {i : Instr} (hmoves : s.drive moves = .next u) (hu : u.Holds c p) (hcmd : decodeCommand cmd = .ok i)
    (hexec : ∀ v : State, v.Holds c p → exec i v = .next (v.deliver bytes)) :
    ∃ t, runOperation moves cmd s = .ok (bytes, t) ∧ t.Holds c p := by
  obtain ⟨hcfg, hilen, hpayload⟩ := hu
  obtain ⟨-, hdone, herr, -⟩ := statusOk_fields
  have hrun : finish (hostMove u (.writeReg 0 cmd.toNat)) = .next (State.deliver { u with cmd := cmd } bytes) := by
    rw [hostMove_writeReg_cmd, acceptCommand_of_ok hcmd, finish_run]
    exact hexec _ ⟨hcfg, hilen, hpayload⟩
  refine ⟨State.deliver { u with cmd := cmd } bytes, ?_, hcfg, hilen, hpayload⟩
  rw [runOperation, State.drive_append hmoves, State.drive_cons_next hrun, State.drive]
  simp only [State.deliver_status, hdone, herr, decide_true, Bool.and_self, if_true, State.deliver_result]

/-- An operation of the script on a payload that it loads first. -/
theorem runOperation_loadMoves {s : State} {c : Config} {p bytes : List Byte} {cmd : Byte} {i : Instr}
    (hcfg : s.cfg = c) (hp : p.length ≤ c.ibufCap) (hcmd : decodeCommand cmd = .ok i)
    (hexec : ∀ v : State, v.Holds c p → exec i v = .next (v.deliver bytes)) :
    ∃ t, runOperation (loadMoves p) cmd s = .ok (bytes, t) ∧ t.Holds c p := by
  subst hcfg
  obtain ⟨u, hmoves, hu⟩ := State.drive_loadMoves hp
  exact runOperation_of_drive hmoves hu hcmd hexec

/-- `CHK` on a held payload (R92). -/
theorem State.Holds.exec_chk {s : State} {c : Config} {p : List Byte} (h : s.Holds c p) :
    exec .chk s = .next (s.deliver [chk p]) :=
  (Machine.exec_chk s).trans (State.withPayload_some h.ilen_le h.payload_eq _)

/-- `NEG` on a held payload that fits the output buffer (R101). -/
theorem State.Holds.exec_neg {s : State} {c : Config} {p : List Byte} (h : s.Holds c p) (hroom : p.length ≤ c.obufCap) :
    exec .neg s = .next (s.deliver (neg p)) := by
  rw [Machine.exec_neg, State.withPayload_some h.ilen_le h.payload_eq,
    State.deliverOrOvf_fits (by rwa [neg_length, h.cfg_eq])]

/-- `WAVE` on a held payload whose pulse train fits the output buffer (R109). -/
theorem State.Holds.exec_wave {s : State} {c : Config} {p : List Byte} (h : s.Holds c p)
    (hroom : 32 * p.length + 8 ≤ c.obufCap) :
    exec .wave s = .next (s.deliver (ser16 (wave timingTable (bits p)))) := by
  rw [Machine.exec_wave, State.withPayload_some h.ilen_le h.payload_eq,
    State.deliverOrOvf_fits (by rwa [length_ser16_wave_bits, h.cfg_eq])]

/-- `COMP.k` on a held payload whose stream fits the output buffer (R140). -/
theorem State.Holds.exec_comp {s : State} {c : Config} {p stream : List Byte} {k : Fin 4} (h : s.Holds c p)
    (hstream : encodeTokens c.extPos (tokens k p) = .ok stream) (hroom : stream.length ≤ c.obufCap) :
    exec (compInstr k) s = .next (s.deliver stream) := by
  rw [exec_compInstr, State.compress_of_encodes h.ilen_le h.payload_eq (h.cfg_eq ▸ hstream),
    State.deliverOrOvf_fits (h.cfg_eq ▸ hroom)]

/-- The command words of the four levels (R71, R140). -/
theorem decodeCommand_comp (k : Fin 4) : decodeCommand (0x04#8 + BitVec.ofNat 8 k.val) = .ok (compInstr k) :=
  match k with
  | 0 => rfl
  | 1 => rfl
  | 2 => rfl
  | 3 => rfl

/-- An admissible output buffer has room for the stream of every legal payload at every level (R4, R155). -/
theorem exists_encodeTokens_fits {c : Config} (hadm : c.Admissible) (k : Fin 4) {p : List Byte}
    (hp : p.length ≤ c.ibufCap) :
    ∃ stream, encodeTokens c.extPos (tokens k p) = .ok stream ∧ stream.length ≤ c.obufCap := by
  obtain ⟨stream, hstream, hlen⟩ := encodeTokens_of_inRange c.extPos (tokens_inRange k p)
  have hle := sum_cost_tokens_le k p
  have hbound := hadm.2
  simp only [Config.ceil32] at hle hbound
  exact ⟨stream, hstream, by omega⟩

/-- Settles O58: operation by operation the host loads what the one before delivered, but for `NEG`, which finds the
frame still in `IBUF`; the two waveforms are the halves of the serialised train. -/
theorem pipelineCompressesTheTrain : Obligations.PipelineCompressesTheTrain := by
  intro s k f5 hadm hf5
  have hibuf : 400 ≤ s.cfg.ibufCap := hadm.1
  have hobuf : 400 ≤ s.cfg.obufCap := hibuf.trans ((Nat.le_add_right _ _).trans hadm.2)
  have hframe : (f5 ++ [chk f5]).length = 6 := by rw [List.length_append, hf5, List.length_singleton]
  have hneg : (neg (f5 ++ [chk f5])).length = 6 := (neg_length _).trans hframe
  obtain ⟨-, -, hbytes, hhalves⟩ := trainOfSixByteFrame (f5 ++ [chk f5]) hframe
  obtain ⟨stream, hstream, hroom⟩ := exists_encodeTokens_fits hadm k (hbytes.trans_le hibuf)
  obtain ⟨s1, hchk, hs1⟩ := runOperation_loadMoves (s := s) (cmd := 0x01#8) (p := f5) rfl (by omega) rfl
    fun _ hv => hv.exec_chk
  obtain ⟨s2, hwave1, hs2⟩ := runOperation_loadMoves (cmd := 0x03#8) (p := f5 ++ [chk f5]) hs1.cfg_eq (by omega) rfl
    fun _ hv => hv.exec_wave (by omega)
  obtain ⟨s3, hcomp, hs3⟩ := runOperation_of_drive (cmd := 0x02#8) (moves := []) rfl hs2 rfl
    fun _ hv => hv.exec_neg (by omega)
  obtain ⟨s4, hwave2, hs4⟩ := runOperation_loadMoves (cmd := 0x03#8) (p := neg (f5 ++ [chk f5])) hs3.cfg_eq
    (by omega) rfl fun _ hv => hv.exec_wave (by omega)
  obtain ⟨s5, hstreamed, -⟩ := runOperation_loadMoves hs4.cfg_eq (hbytes.trans_le hibuf) (decodeCommand_comp k)
    fun _ hv => hv.exec_comp hstream hroom
  rw [hhalves] at hstreamed
  refine ⟨stream, s5, ?_, hstream⟩
  simp only [pipeline, bind, Except.bind, hchk, hwave1, hcomp, hwave2, hstreamed]

end Sys2Proof.Machine
